-- ==== Sys2Proof/Word.lean ====
section
/-! DEFINITION. The word types of the core and their plainest arithmetic (R4, R6). -/

namespace Sys2Proof

/-- An 8-bit value: a `V` register, a timer, a memory cell, an immediate `nn` (R4 `V_WIDTH`). -/
abbrev Byte := BitVec 8

/-- A 16-bit value: PC, I, a stack entry, an opcode (R4 `PC_WIDTH`, `I_WIDTH`). -/
abbrev Word := BitVec 16

/-- A register selector `x` or `y`: it names `V[0]` to `V[15]` (R21). -/
abbrev Reg := Fin 16

/-- A logical key code 0x0–0xF (R29). -/
abbrev Key := Fin 16

/-- `zext_16` of R6: the same value in 16 bits. -/
def zext16 (b : Byte) : Word := b.zeroExtend 16

/-- A truth value as the byte 1 or 0, the form every flag takes in VF (R212). -/
def flagByte (c : Bool) : Byte := if c then 1 else 0

/-- A key code as the byte that Fx0A writes to `V[x]` (R273). -/
def keyByte (k : Key) : Byte := BitVec.ofNat 8 k.val

end Sys2Proof
end

