-- ==== Sys2Proof/Config.lean ====
section
/-! DEFINITION. What is fixed for one machine (the parameters of R4, with this hardware's defaults) and the one free
value of the spec, the random source. -/

namespace Sys2Proof

/-- `BORROW_POLARITY` (R4, R213): what VF says after a subtract. -/
inductive BorrowPolarity where
  /-- VF = 1 on underflow (borrow); this hardware's value. -/
  | source
  /-- VF = 1 when no borrow occurs. -/
  | canonical
  deriving DecidableEq, Repr

/-- The parameters of R4. A machine carries its own (`State.cfg`), so that a statement holds for every value of them
(log 6). -/
structure Config where
  /-- `FONT`: 80 bytes, 16 glyphs of 5 (R37). -/
  font       : List Byte
  /-- `FB_W`, the number of framebuffer columns. -/
  fbW        : Nat
  /-- `FB_H`, the number of framebuffer rows. -/
  fbH        : Nat
  /-- `STACK_LIMIT`; `none` is the spec's `unbounded` (R26). -/
  stackLimit : Option Nat
  /-- `BORROW_POLARITY` (R213). -/
  borrow     : BorrowPolarity
  deriving DecidableEq, Repr

namespace Config

/-- What R4 asks of the parameters: the font's size, positive screen sizes, a positive stack limit. -/
def wf (c : Config) : Bool :=
  c.font.length == 80 && decide (0 < c.fbW) && decide (0 < c.fbH) && c.stackLimit != some 0

/-- Glyphs 0 to 7 of the default `FONT` (R37; from general knowledge, not in source: log 8). -/
def fontLow : List Byte :=
  [0xF0, 0x90, 0x90, 0x90, 0xF0] ++ [0x20, 0x60, 0x20, 0x20, 0x70] ++
  [0xF0, 0x10, 0xF0, 0x80, 0xF0] ++ [0xF0, 0x10, 0xF0, 0x10, 0xF0] ++
  [0x90, 0x90, 0xF0, 0x10, 0x10] ++ [0xF0, 0x80, 0xF0, 0x10, 0xF0] ++
  [0xF0, 0x80, 0xF0, 0x90, 0xF0] ++ [0xF0, 0x10, 0x20, 0x40, 0x40]

/-- Glyphs 8 to F of the default `FONT` (R37). -/
def fontHigh : List Byte :=
  [0xF0, 0x90, 0xF0, 0x90, 0xF0] ++ [0xF0, 0x90, 0xF0, 0x10, 0xF0] ++
  [0xF0, 0x90, 0xF0, 0x90, 0x90] ++ [0xE0, 0x90, 0xE0, 0x90, 0xE0] ++
  [0xF0, 0x80, 0x80, 0x80, 0xF0] ++ [0xE0, 0x90, 0x90, 0x90, 0xE0] ++
  [0xF0, 0x80, 0xF0, 0x80, 0xF0] ++ [0xF0, 0x80, 0xF0, 0x80, 0x80]

/-- This hardware's parameters: the defaults of R4. -/
def default : Config :=
  { font := fontLow ++ fontHigh, fbW := 64, fbH := 32, stackLimit := some 16, borrow := .source }

/-- The random source of Cxnn (R211, D12): the byte of draw number `k`. FREE VALUE: it has no body, so nothing can be
proved of a draw but that it is a byte (log 5). -/
opaque randomByte : Nat → Byte

end Config

/-- `MEM_SIZE` (R4). -/
def memSize : Nat := 4096

/-- `FONT_BASE` (R4, C5). -/
def fontBase : Nat := 0x050

/-- The size of `FONT` in bytes (R4). -/
def fontSize : Nat := 80

/-- `FONT_GLYPH_BYTES` (R4). -/
def glyphBytes : Nat := 5

/-- `ROM_BASE` (R4). -/
def romBase : Nat := 0x200

/-- `ROM_MAX` (R4): the longest ROM that `load` accepts. -/
def romMax : Nat := 3584

/-- `PC_RESET` (R4, R24). -/
def pcReset : Word := 0x200

end Sys2Proof
end

