-- ==== Sys2Proof/Machine/Flags.lean ====
section
/-! DEFINITION. Results and flags of the arithmetic instructions: computed over integers, then reduced (R6, R212). Every
flag is a byte 0 or 1 for VF. -/

namespace Sys2Proof.Machine

/-- The unbounded sum `a + b` of 7xnn and 8xy4 (R201, R206). -/
def sumOf (a b : Byte) : Nat := a.toNat + b.toNat

/-- The unbounded difference `a - b` of 8xy5 and 8xy7 (R207, R209). -/
def diffOf (a b : Byte) : Int := (a.toNat : Int) - (b.toNat : Int)

/-- `sum mod 256` (R201, R206). -/
def addResult (a b : Byte) : Byte := BitVec.ofNat 8 (sumOf a b)

/-- 8xy4's flag: carry, 1 iff the unmasked sum exceeds 255 (R206). -/
def carryFlag (a b : Byte) : Byte := flagByte (decide (sumOf a b > 255))

/-- `diff mod 256`, two's complement wrap (R207, R209). -/
def subResult (a b : Byte) : Byte := BitVec.ofInt 8 (diffOf a b)

/-- `subflag(a, b)` of R213 under the machine's `BORROW_POLARITY`. -/
def subFlag (p : BorrowPolarity) (a b : Byte) : Byte :=
  match p with
  | .source => flagByte (decide (diffOf a b < 0))
  | .canonical => flagByte (decide (diffOf a b ≥ 0))

/-- 8xy6's result, `a >> 1` (R208). -/
def shrResult (a : Byte) : Byte := BitVec.ofNat 8 (a.toNat / 2)

/-- 8xy6's flag: the bit shifted out, bit 0 of `a` (R208). -/
def shrFlag (a : Byte) : Byte := flagByte (a.getLsbD 0)

/-- 8xyE's result, `(a << 1) mod 256` (R210). -/
def shlResult (a : Byte) : Byte := BitVec.ofNat 8 (2 * a.toNat)

/-- 8xyE's flag: the bit shifted out, bit 7 of `a` (R210). -/
def shlFlag (a : Byte) : Byte := flagByte (a.getLsbD 7)

/-- The unmasked sum `I + V[x]` of Fx1E (R241). -/
def indexSum (i : Word) (b : Byte) : Nat := i.toNat + b.toNat

/-- Fx1E's new I: the sum masked to 12 bits (R241). -/
def indexResult (i : Word) (b : Byte) : Word := BitVec.ofNat 16 (indexSum i b % 0x1000)

/-- Fx1E's flag: 1 iff the unmasked sum exceeds 0xFFF (R241). -/
def indexFlag (i : Word) (b : Byte) : Byte := flagByte (decide (indexSum i b > 0xFFF))

/-- Fx29's I: the glyph address of the full byte (R242). -/
def glyphAddress (b : Byte) : Word := BitVec.ofNat 16 (fontBase + glyphBytes * b.toNat)

/-- The decimal digits of a byte: hundreds, tens, units (R243). -/
def bcdDigits (b : Byte) : List Byte :=
  [BitVec.ofNat 8 (b.toNat / 100), BitVec.ofNat 8 (b.toNat / 10 % 10), BitVec.ofNat 8 (b.toNat % 10)]

end Sys2Proof.Machine
end

