-- ==== Sys2Proof/Syntax.lean ====
section
/-! DEFINITION. The instructions: one constructor for each row of spec/opcode_table.json (R94), with the fields its
format uses (R93, R97). -/

namespace Sys2Proof

/-- The 34 instructions of R94, in the table's order. `x`, `y` select `V[x]`, `V[y]`; `nn` is the 8-bit immediate, `nnn`
the 12-bit address in a 16-bit word, `n` the row count (R91). -/
inductive Instr where
  /-- 00E0 CLS (R150). -/
  | cls
  /-- 00EE RET (R170). -/
  | ret
  /-- 1nnn JP nnn (R171). -/
  | jp (nnn : Word)
  /-- 2nnn CALL nnn (R172). -/
  | call (nnn : Word)
  /-- 3xnn SE Vx, nn (R173). -/
  | seImm (x : Reg) (nn : Byte)
  /-- 4xnn SNE Vx, nn (R174). -/
  | sneImm (x : Reg) (nn : Byte)
  /-- 5xy0 SE Vx, Vy (R175). -/
  | seReg (x y : Reg)
  /-- 6xnn LD Vx, nn (R200). -/
  | ldImm (x : Reg) (nn : Byte)
  /-- 7xnn ADD Vx, nn (R201). -/
  | addImm (x : Reg) (nn : Byte)
  /-- 8xy0 LD Vx, Vy (R202). -/
  | ldReg (x y : Reg)
  /-- 8xy1 OR Vx, Vy (R203). -/
  | or (x y : Reg)
  /-- 8xy2 AND Vx, Vy (R204). -/
  | and (x y : Reg)
  /-- 8xy3 XOR Vx, Vy (R205). -/
  | xor (x y : Reg)
  /-- 8xy4 ADD Vx, Vy (R206). -/
  | addReg (x y : Reg)
  /-- 8xy5 SUB Vx, Vy (R207). -/
  | sub (x y : Reg)
  /-- 8xy6 SHR Vx, Vy (R208): carries `y`, which the meaning ignores (R97). -/
  | shr (x y : Reg)
  /-- 8xy7 SUBN Vx, Vy (R209). -/
  | subn (x y : Reg)
  /-- 8xyE SHL Vx, Vy (R210): carries `y`, which the meaning ignores (R97). -/
  | shl (x y : Reg)
  /-- 9xy0 SNE Vx, Vy (R176). -/
  | sneReg (x y : Reg)
  /-- Annn LD I, nnn (R240). -/
  | ldI (nnn : Word)
  /-- Bnnn JP V0, nnn (R177). -/
  | jpV0 (nnn : Word)
  /-- Cxnn RND Vx, nn (R211). -/
  | rnd (x : Reg) (nn : Byte)
  /-- Dxyn DRW Vx, Vy, n (R151). -/
  | drw (x y : Reg) (n : Nat)
  /-- Ex9E SKP Vx (R270). -/
  | skp (x : Reg)
  /-- ExA1 SKNP Vx (R271). -/
  | sknp (x : Reg)
  /-- Fx07 LD Vx, DT (R272). -/
  | ldVxDt (x : Reg)
  /-- Fx0A LD Vx, K (R273). -/
  | ldVxK (x : Reg)
  /-- Fx15 LD DT, Vx (R274). -/
  | ldDtVx (x : Reg)
  /-- Fx18 LD ST, Vx (R275). -/
  | ldStVx (x : Reg)
  /-- Fx1E ADD I, Vx (R241). -/
  | addI (x : Reg)
  /-- Fx29 LD F, Vx (R242). -/
  | ldF (x : Reg)
  /-- Fx33 LD B, Vx (R243). -/
  | ldB (x : Reg)
  /-- Fx55 LD [I], Vx (R244). -/
  | stRegs (x : Reg)
  /-- Fx65 LD Vx, [I] (R245). -/
  | ldRegs (x : Reg)
  deriving DecidableEq, Repr

end Sys2Proof
end

