-- ==== Sys2Proof/Decode.lean ====
section
/-! DEFINITION. Decoding (R90–R97), total on words and on byte lists, rejecting by name; then the encoder (R99), the
mnemonics and the opcode map of R94 as data. -/

namespace Sys2Proof

/-- The decoder's answer on one word (R97). -/
inductive Decoded where
  /-- The word is a row of R94. -/
  | instr (i : Instr)
  /-- The word matches no row: `UnknownOpcode(op)` (R95). -/
  | unknownOpcode (op : Word)
  deriving DecidableEq, Repr

/-- The primary selector `op[15:12]` (R91). -/
def opT (op : Word) : Nat := op.toNat / 4096

/-- The field `x = op[11:8]` (R91). -/
def opX (op : Word) : Reg := Fin.ofNat 16 (op.toNat / 256)

/-- The field `y = op[7:4]` (R91). -/
def opY (op : Word) : Reg := Fin.ofNat 16 (op.toNat / 16)

/-- The field `n = op[3:0]` (R91). -/
def opN (op : Word) : Nat := op.toNat % 16

/-- The field `nn = op[7:0]` (R91). -/
def opNN (op : Word) : Byte := BitVec.ofNat 8 op.toNat

/-- The field `nnn = op[11:0]` (R91). -/
def opNNN (op : Word) : Word := BitVec.ofNat 16 (op.toNat % 4096)

/-- Words with `t = 0`: only 0x00E0 and 0x00EE decode (R95). -/
def decode0 (op : Word) : Decoded :=
  if op.toNat = 0x00E0 then .instr .cls
  else if op.toNat = 0x00EE then .instr .ret
  else .unknownOpcode op

/-- The sub-table of `t = 8`, on `n` (R95). -/
def decode8 (op : Word) : Decoded :=
  match opN op with
  | 0x0 => .instr (.ldReg (opX op) (opY op))
  | 0x1 => .instr (.or (opX op) (opY op))
  | 0x2 => .instr (.and (opX op) (opY op))
  | 0x3 => .instr (.xor (opX op) (opY op))
  | 0x4 => .instr (.addReg (opX op) (opY op))
  | 0x5 => .instr (.sub (opX op) (opY op))
  | 0x6 => .instr (.shr (opX op) (opY op))
  | 0x7 => .instr (.subn (opX op) (opY op))
  | 0xE => .instr (.shl (opX op) (opY op))
  | _ => .unknownOpcode op

/-- The sub-table of `t = E`, on `nn` (R95). -/
def decodeE (op : Word) : Decoded :=
  match (opNN op).toNat with
  | 0x9E => .instr (.skp (opX op))
  | 0xA1 => .instr (.sknp (opX op))
  | _ => .unknownOpcode op

/-- The sub-table of `t = F`, on `nn` (R95). -/
def decodeF (op : Word) : Decoded :=
  match (opNN op).toNat with
  | 0x07 => .instr (.ldVxDt (opX op))
  | 0x0A => .instr (.ldVxK (opX op))
  | 0x15 => .instr (.ldDtVx (opX op))
  | 0x18 => .instr (.ldStVx (opX op))
  | 0x1E => .instr (.addI (opX op))
  | 0x29 => .instr (.ldF (opX op))
  | 0x33 => .instr (.ldB (opX op))
  | 0x55 => .instr (.stRegs (opX op))
  | 0x65 => .instr (.ldRegs (opX op))
  | _ => .unknownOpcode op

/-- Decode one word: the two-level dispatch of R95. Total; it reads no state (R97). -/
def decodeWord (op : Word) : Decoded :=
  match opT op with
  | 0x0 => decode0 op
  | 0x1 => .instr (.jp (opNNN op))
  | 0x2 => .instr (.call (opNNN op))
  | 0x3 => .instr (.seImm (opX op) (opNN op))
  | 0x4 => .instr (.sneImm (opX op) (opNN op))
  | 0x5 => if opN op = 0 then .instr (.seReg (opX op) (opY op)) else .unknownOpcode op
  | 0x6 => .instr (.ldImm (opX op) (opNN op))
  | 0x7 => .instr (.addImm (opX op) (opNN op))
  | 0x8 => decode8 op
  | 0x9 => if opN op = 0 then .instr (.sneReg (opX op) (opY op)) else .unknownOpcode op
  | 0xA => .instr (.ldI (opNNN op))
  | 0xB => .instr (.jpV0 (opNNN op))
  | 0xC => .instr (.rnd (opX op) (opNN op))
  | 0xD => .instr (.drw (opX op) (opY op) (opN op))
  | 0xE => decodeE op
  | 0xF => decodeF op
  | _ => .unknownOpcode op

/-- The opcode of two fetched bytes, big-endian: the first byte is the most significant (R64). -/
def joinBytes (hi lo : Byte) : Word := hi ++ lo

/-- The first (most significant) byte of an opcode as memory holds it (R64). -/
def highByte (op : Word) : Byte := BitVec.ofNat 8 (op.toNat / 256)

/-- The second (least significant) byte of an opcode as memory holds it (R64). -/
def lowByte (op : Word) : Byte := BitVec.ofNat 8 op.toNat

/-- The decoder's answer on a list of bytes. -/
inductive StreamDecoded where
  /-- The first two bytes were decoded; `rest` follows them (R90: always 2 bytes). -/
  | word (d : Decoded) (rest : List Byte)
  /-- Fewer than two bytes: no opcode. -/
  | truncated
  deriving DecidableEq, Repr

/-- Decode the first instruction of any list of bytes (R90). -/
def decodeBytes : List Byte → StreamDecoded
  | hi :: lo :: rest => .word (decodeWord (joinBytes hi lo)) rest
  | _ => .truncated

/-- The host's question: the instruction read from the table word `w` of `nbits` bits (bits above `nbits` zero). -/
def decodeTableWord (nbits w : Nat) : Option Instr :=
  let op : Word := BitVec.ofNat 16 (w % 2 ^ nbits)
  match decodeBytes [highByte op, lowByte op] with
  | .word (.instr i) _ => some i
  | .word (.unknownOpcode _) _ => none
  | .truncated => none

/-! ## The encoder (R99: the opcode is `match` with the fields placed as R91 says) -/

/-- Format `NNN` (R93). -/
def encodeNNN (m : Nat) (nnn : Word) : Word := BitVec.ofNat 16 (m + nnn.toNat)

/-- Format `XNN` (R93). -/
def encodeXNN (m : Nat) (x : Reg) (nn : Byte) : Word := BitVec.ofNat 16 (m + 256 * x.val + nn.toNat)

/-- Format `XY` (R93). -/
def encodeXY (m : Nat) (x y : Reg) : Word := BitVec.ofNat 16 (m + 256 * x.val + 16 * y.val)

/-- Format `XYN` (R93). -/
def encodeXYN (m : Nat) (x y : Reg) (n : Nat) : Word := BitVec.ofNat 16 (m + 256 * x.val + 16 * y.val + n)

/-- Format `X` (R93). -/
def encodeX (m : Nat) (x : Reg) : Word := BitVec.ofNat 16 (m + 256 * x.val)

/-- The opcode of an instruction: its row's `match` and its fields (R94, R99). -/
def encode : Instr → Word
  | .cls => 0x00E0
  | .ret => 0x00EE
  | .jp nnn => encodeNNN 0x1000 nnn
  | .call nnn => encodeNNN 0x2000 nnn
  | .seImm x nn => encodeXNN 0x3000 x nn
  | .sneImm x nn => encodeXNN 0x4000 x nn
  | .seReg x y => encodeXY 0x5000 x y
  | .ldImm x nn => encodeXNN 0x6000 x nn
  | .addImm x nn => encodeXNN 0x7000 x nn
  | .ldReg x y => encodeXY 0x8000 x y
  | .or x y => encodeXY 0x8001 x y
  | .and x y => encodeXY 0x8002 x y
  | .xor x y => encodeXY 0x8003 x y
  | .addReg x y => encodeXY 0x8004 x y
  | .sub x y => encodeXY 0x8005 x y
  | .shr x y => encodeXY 0x8006 x y
  | .subn x y => encodeXY 0x8007 x y
  | .shl x y => encodeXY 0x800E x y
  | .sneReg x y => encodeXY 0x9000 x y
  | .ldI nnn => encodeNNN 0xA000 nnn
  | .jpV0 nnn => encodeNNN 0xB000 nnn
  | .rnd x nn => encodeXNN 0xC000 x nn
  | .drw x y n => encodeXYN 0xD000 x y n
  | .skp x => encodeX 0xE09E x
  | .sknp x => encodeX 0xE0A1 x
  | .ldVxDt x => encodeX 0xF007 x
  | .ldVxK x => encodeX 0xF00A x
  | .ldDtVx x => encodeX 0xF015 x
  | .ldStVx x => encodeX 0xF018 x
  | .addI x => encodeX 0xF01E x
  | .ldF x => encodeX 0xF029 x
  | .ldB x => encodeX 0xF033 x
  | .stRegs x => encodeX 0xF055 x
  | .ldRegs x => encodeX 0xF065 x

/-! ## Assembler syntax (R98, R99): text and program bytes; it has no effect on the machine (D5) -/

/-- A number in hexadecimal digits, as R99's literals and register names write it. -/
def hexText (n : Nat) : String := String.ofList ((Nat.toDigits 16 n).map Char.toUpper)

/-- A register name, `V0`..`VF` (R99). -/
def regText (x : Reg) : String := "V" ++ hexText x.val

/-- A hex literal `0x..` (R99). -/
def immText (n : Nat) : String := "0x" ++ hexText n

/-- The assembler form of an instruction: the `syntax` column of R94. -/
def Instr.asm : Instr → String
  | .cls => "CLS"
  | .ret => "RET"
  | .jp nnn => "JP " ++ immText nnn.toNat
  | .call nnn => "CALL " ++ immText nnn.toNat
  | .seImm x nn => "SE " ++ regText x ++ ", " ++ immText nn.toNat
  | .sneImm x nn => "SNE " ++ regText x ++ ", " ++ immText nn.toNat
  | .seReg x y => "SE " ++ regText x ++ ", " ++ regText y
  | .ldImm x nn => "LD " ++ regText x ++ ", " ++ immText nn.toNat
  | .addImm x nn => "ADD " ++ regText x ++ ", " ++ immText nn.toNat
  | .ldReg x y => "LD " ++ regText x ++ ", " ++ regText y
  | .or x y => "OR " ++ regText x ++ ", " ++ regText y
  | .and x y => "AND " ++ regText x ++ ", " ++ regText y
  | .xor x y => "XOR " ++ regText x ++ ", " ++ regText y
  | .addReg x y => "ADD " ++ regText x ++ ", " ++ regText y
  | .sub x y => "SUB " ++ regText x ++ ", " ++ regText y
  | .shr x y => "SHR " ++ regText x ++ ", " ++ regText y
  | .subn x y => "SUBN " ++ regText x ++ ", " ++ regText y
  | .shl x y => "SHL " ++ regText x ++ ", " ++ regText y
  | .sneReg x y => "SNE " ++ regText x ++ ", " ++ regText y
  | .ldI nnn => "LD I, " ++ immText nnn.toNat
  | .jpV0 nnn => "JP V0, " ++ immText nnn.toNat
  | .rnd x nn => "RND " ++ regText x ++ ", " ++ immText nn.toNat
  | .drw x y n => "DRW " ++ regText x ++ ", " ++ regText y ++ ", " ++ toString n
  | .skp x => "SKP " ++ regText x
  | .sknp x => "SKNP " ++ regText x
  | .ldVxDt x => "LD " ++ regText x ++ ", DT"
  | .ldVxK x => "LD " ++ regText x ++ ", K"
  | .ldDtVx x => "LD DT, " ++ regText x
  | .ldStVx x => "LD ST, " ++ regText x
  | .addI x => "ADD I, " ++ regText x
  | .ldF x => "LD F, " ++ regText x
  | .ldB x => "LD B, " ++ regText x
  | .stRegs x => "LD [I], " ++ regText x
  | .ldRegs x => "LD " ++ regText x ++ ", [I]"

/-- One line of a program (R99); a label is written as its 12-bit address. -/
inductive AsmLine where
  /-- An instruction. -/
  | instr (i : Instr)
  /-- `DB b0, b1, …`: raw bytes. -/
  | db (bytes : List Byte)
  deriving DecidableEq, Repr

/-- The bytes of one line: an opcode big-endian (R64), or the raw bytes (R99). -/
def AsmLine.bytes : AsmLine → List Byte
  | .instr i => [highByte (encode i), lowByte (encode i)]
  | .db bs => bs

/-- The ROM bytes of a program (R99). -/
def assemble (prog : List AsmLine) : List Byte := prog.flatMap AsmLine.bytes

/-! ## The opcode map of R94 as data -/

/-- The unique instruction name of R94. -/
def Instr.name : Instr → String
  | .cls => "CLS"
  | .ret => "RET"
  | .jp _ => "JP"
  | .call _ => "CALL"
  | .seImm _ _ => "SE_IMM"
  | .sneImm _ _ => "SNE_IMM"
  | .seReg _ _ => "SE_REG"
  | .ldImm _ _ => "LD_IMM"
  | .addImm _ _ => "ADD_IMM"
  | .ldReg _ _ => "LD_REG"
  | .or _ _ => "OR"
  | .and _ _ => "AND"
  | .xor _ _ => "XOR"
  | .addReg _ _ => "ADD_REG"
  | .sub _ _ => "SUB"
  | .shr _ _ => "SHR"
  | .subn _ _ => "SUBN"
  | .shl _ _ => "SHL"
  | .sneReg _ _ => "SNE_REG"
  | .ldI _ => "LD_I"
  | .jpV0 _ => "JP_V0"
  | .rnd _ _ => "RND"
  | .drw _ _ _ => "DRW"
  | .skp _ => "SKP"
  | .sknp _ => "SKNP"
  | .ldVxDt _ => "LD_VX_DT"
  | .ldVxK _ => "LD_VX_K"
  | .ldDtVx _ => "LD_DT_VX"
  | .ldStVx _ => "LD_ST_VX"
  | .addI _ => "ADD_I"
  | .ldF _ => "LD_F"
  | .ldB _ => "LD_B"
  | .stRegs _ => "ST_REGS"
  | .ldRegs _ => "LD_REGS"

/-- One row of R94: `op & mask = pat` selects it. -/
structure OpcodeRow where
  /-- The row's `name`. -/
  name : String
  /-- The row's `match`. -/
  pat  : Word
  /-- The row's `mask`. -/
  mask : Word
  deriving DecidableEq, Repr

/-- The word belongs to the row (R94). -/
def OpcodeRow.hits (r : OpcodeRow) (op : Word) : Bool := op &&& r.mask == r.pat

/-- Rows 1 to 9 of R94. -/
def opcodeMapA : List OpcodeRow :=
  [⟨"CLS", 0x00E0, 0xFFFF⟩, ⟨"RET", 0x00EE, 0xFFFF⟩, ⟨"JP", 0x1000, 0xF000⟩, ⟨"CALL", 0x2000, 0xF000⟩,
   ⟨"SE_IMM", 0x3000, 0xF000⟩, ⟨"SNE_IMM", 0x4000, 0xF000⟩, ⟨"SE_REG", 0x5000, 0xF00F⟩,
   ⟨"LD_IMM", 0x6000, 0xF000⟩, ⟨"ADD_IMM", 0x7000, 0xF000⟩]

/-- Rows 10 to 19 of R94. -/
def opcodeMapB : List OpcodeRow :=
  [⟨"LD_REG", 0x8000, 0xF00F⟩, ⟨"OR", 0x8001, 0xF00F⟩, ⟨"AND", 0x8002, 0xF00F⟩, ⟨"XOR", 0x8003, 0xF00F⟩,
   ⟨"ADD_REG", 0x8004, 0xF00F⟩, ⟨"SUB", 0x8005, 0xF00F⟩, ⟨"SHR", 0x8006, 0xF00F⟩, ⟨"SUBN", 0x8007, 0xF00F⟩,
   ⟨"SHL", 0x800E, 0xF00F⟩, ⟨"SNE_REG", 0x9000, 0xF00F⟩]

/-- Rows 20 to 34 of R94. -/
def opcodeMapC : List OpcodeRow :=
  [⟨"LD_I", 0xA000, 0xF000⟩, ⟨"JP_V0", 0xB000, 0xF000⟩, ⟨"RND", 0xC000, 0xF000⟩, ⟨"DRW", 0xD000, 0xF000⟩,
   ⟨"SKP", 0xE09E, 0xF0FF⟩, ⟨"SKNP", 0xE0A1, 0xF0FF⟩, ⟨"LD_VX_DT", 0xF007, 0xF0FF⟩, ⟨"LD_VX_K", 0xF00A, 0xF0FF⟩,
   ⟨"LD_DT_VX", 0xF015, 0xF0FF⟩, ⟨"LD_ST_VX", 0xF018, 0xF0FF⟩, ⟨"ADD_I", 0xF01E, 0xF0FF⟩,
   ⟨"LD_F", 0xF029, 0xF0FF⟩, ⟨"LD_B", 0xF033, 0xF0FF⟩, ⟨"ST_REGS", 0xF055, 0xF0FF⟩, ⟨"LD_REGS", 0xF065, 0xF0FF⟩]

/-- The complete opcode map (R94), in the table's order. -/
def opcodeMap : List OpcodeRow := opcodeMapA ++ opcodeMapB ++ opcodeMapC

end Sys2Proof
end

