-- ==== Sys2Proof/Machine/State.lean ====
section
/-! DEFINITION. The machine's state as plain data (R20–R33), the fault kinds, the host's actions, and the state after
reset (R36). -/

namespace Sys2Proof.Machine

/-- The three fault kinds of R300. In this model a fault is never the end of a run: the instruction that raises it
answers a NEXT state whose `fault` latch holds the record (R302, log 3), so no meaning answers `Outcome.fault`. -/
inductive Fault where
  /-- Raised by a step whose fetched word matches no row of R94 (R300 code 1). Safe: the spec gives the effect, the
  latch, and the model takes it. -/
  | unknownOpcode
  /-- Raised by RET on an empty call stack (R300 code 2). Safe, for the same reason. -/
  | stackUnderflow
  /-- Raised by CALL when the call stack holds `STACK_LIMIT` entries (R300 code 3). Safe, for the same reason. -/
  | stackOverflow
  deriving DecidableEq, Repr

/-- Why the model could decline an instruction. No arm of `exec` does. -/
inductive Refusal where
  /-- Raised by `exec` for an instruction that has no meaning yet (none is left). Safe: nothing is claimed of it. -/
  | notModelled (mnemonic : String)
  deriving DecidableEq, Repr

/-- The latched fault record `{kind, opcode, pc}` of R33. -/
structure FaultRecord where
  kind   : Fault
  opcode : Word
  pc     : Word
  deriving DecidableEq, Repr

/-- Memory: the bytes that differ from what an unlisted address reads as, by rising address (log 7). -/
abbrev Memory := List Host.Cell

/-- The bit matrix of R30: `FB_H` rows of `FB_W` pixels, row 0 at the top, column 0 at the left. -/
abbrev Framebuffer := List (List Bool)

/-- The host's actions of R317, each atomic and between ticks (R131). -/
inductive HostAction where
  /-- `load(rom)` (R351, R352). -/
  | load (rom : List Byte)
  /-- `keyDown(c)` (R312). -/
  | keyDown (c : Key)
  /-- `keyUp(c)` (R313). -/
  | keyUp (c : Key)
  /-- `clearDirty()` (R316). -/
  | clearDirty
  /-- `frame()`: reads only (R315). -/
  | frame
  /-- `isSoundActive()`: reads only (R310). -/
  | isSoundActive
  deriving DecidableEq, Repr

/-- What the core does not hold but a run needs: the model's own fields (logs 4 and 5). -/
structure Env where
  /-- How many random bytes have been drawn: the index of the next free value (R211). -/
  draws  : Nat
  /-- The host's actions before each coming tick, the next tick's batch first (R131); past the end, none. -/
  inputs : List (List HostAction)
  deriving DecidableEq, Repr

/-- The whole machine: `Unloaded` or `Loaded(S)` with the fields of R20, the parameters and the environment. -/
structure State where
  /-- True in `Loaded(S)`, false in `Unloaded` (R20; log 2). -/
  loaded         : Bool
  /-- The 4096 bytes of R60. -/
  mem            : Memory
  /-- V0 to VF (R21, R22). -/
  v              : Vector Byte 16
  /-- The index register I (R23). -/
  i              : Word
  /-- The program counter (R24). -/
  pc             : Word
  /-- The call stack, its top last (R25, R26). -/
  stack          : List Word
  /-- The delay timer (R27). -/
  dt             : Byte
  /-- The sound timer (R28). -/
  st             : Byte
  /-- The key states (R29). -/
  keys           : Vector Bool 16
  /-- The framebuffer (R30). -/
  fb             : Framebuffer
  /-- The dirty flag (R31). -/
  dirty          : Bool
  /-- Fx0A is waiting (R32). -/
  blocked        : Bool
  /-- A key was pressed while Fx0A waited, and Fx0A has not completed (R32). -/
  pendingUnblock : Bool
  /-- The code of that key (R32). -/
  lastKey        : Option Key
  /-- The sticky fault latch (R33). -/
  fault          : Option FaultRecord
  /-- The machine's parameters (R4); nothing changes them (log 6). -/
  cfg            : Config
  /-- The environment (logs 4 and 5). -/
  env            : Env
  deriving DecidableEq, Repr

/-- An all-zero `h` × `w` bit matrix (R30, R36). -/
def Framebuffer.blank (h w : Nat) : Framebuffer := List.replicate h (List.replicate w false)

/-- The reset record `S0` of R36 with the given memory; the parameters and the environment are not reset. -/
def State.initial (cfg : Config) (env : Env) (mem : Memory) : State :=
  { loaded := true, mem := mem, v := Vector.replicate 16 0, i := 0, pc := pcReset, stack := [], dt := 0, st := 0,
    keys := Vector.replicate 16 false, fb := Framebuffer.blank cfg.fbH cfg.fbW, dirty := false, blocked := false,
    pendingUnblock := false, lastKey := none, fault := none, cfg := cfg, env := env }

/-- The machine right after reset: a successful load (R350), of no program bytes (log 1), with R4's default
parameters, nothing listed in memory and no host action scheduled. -/
def State.reset : State := State.initial Config.default { draws := 0, inputs := [] } []

/-- The machine at power-on: `Unloaded` (R20). Its other fields stand at blank values that nothing reads (log 2). -/
def State.powerOn (cfg : Config) (env : Env) : State := { State.initial cfg env [] with loaded := false }

end Sys2Proof.Machine
end

