-- ==== Sys2Proof/Machine/Ops.lean ====
section
/-! DEFINITION. The shared operations over memory, registers, PC, call stack, timers and framebuffer (R7), and taking a
fault (R302). -/

namespace Sys2Proof.Machine

/-! ## Memory (R60–R66) -/

/-- The effective-address map `EA(a) = a mod 4096` (R61). -/
def effAddr (a : Nat) : Nat := a % memSize

/-- What an address that memory does not list reads as: the contents after a load of no bytes, FONT at 0x050..0x09F and
zero elsewhere (R36, R67; log 7). -/
def Memory.background (font : List Byte) (a : Nat) : Byte :=
  if fontBase ≤ a ∧ a < fontBase + fontSize then font.getD (a - fontBase) 0 else 0

/-- The byte at a cell address. -/
def Memory.read (bg : Nat → Byte) : Memory → Nat → Byte
  | [], a => bg a
  | (k, b) :: rest, a => if k = a then b else Memory.read bg rest a

/-- Drop the cell at an address, if it is listed. -/
def Memory.erase : Memory → Nat → Memory
  | [], _ => []
  | (k, b) :: rest, a => if k = a then rest else (k, b) :: Memory.erase rest a

/-- Put a cell in its place among the rising addresses, over the one that is there. -/
def Memory.insert : Memory → Nat → Byte → Memory
  | [], a, b => [(a, b)]
  | (k, c) :: rest, a, b =>
    if a < k then (a, b) :: (k, c) :: rest
    else if a = k then (a, b) :: rest
    else (k, c) :: Memory.insert rest a b

/-- Write one byte, keeping the canonical form: writing the background value takes the entry out. -/
def Memory.write (bg : Nat → Byte) (m : Memory) (a : Nat) (b : Byte) : Memory :=
  if b = bg a then Memory.erase m a else Memory.insert m a b

/-- The canonical memory that holds `bytes` from `base` up and the background elsewhere. -/
def Memory.ofBytes (bg : Nat → Byte) : Nat → List Byte → Memory
  | _, [] => []
  | base, b :: rest =>
    if b = bg base then Memory.ofBytes bg (base + 1) rest else (base, b) :: Memory.ofBytes bg (base + 1) rest

/-- All addresses of the list lie above `a`, rise, and stay below `MEM_SIZE`, and no entry equals the background. -/
def Memory.wfAbove (bg : Nat → Byte) : Nat → Memory → Bool
  | _, [] => true
  | low, (k, b) :: rest =>
    decide (low ≤ k) && decide (k < memSize) && decide (b ≠ bg k) && Memory.wfAbove bg (k + 1) rest

/-- The canonical form: strictly rising addresses below `MEM_SIZE`, no entry equal to the background (log 7). -/
def Memory.wf (bg : Nat → Byte) (m : Memory) : Bool := Memory.wfAbove bg 0 m

/-- The background of this machine's memory. -/
def State.background (s : State) : Nat → Byte := Memory.background s.cfg.font

/-- `MemRead(a, 1)` (R62), for any non-negative address (R61). -/
def State.memRead (s : State) (a : Nat) : Byte := Memory.read s.background s.mem (effAddr a)

/-- `MemWrite(a, 1, v)` (R62). -/
def State.memWrite (s : State) (a : Nat) (b : Byte) : State :=
  { s with mem := Memory.write s.background s.mem (effAddr a) b }

/-- Writes at `a`, `a + 1`, … in increasing order (R66). -/
def State.storeBytes (s : State) (a : Nat) : List Byte → State
  | [] => s
  | b :: rest => State.storeBytes (s.memWrite a b) (a + 1) rest

/-- The bytes read at `a`, …, `a + n - 1`, in increasing order (R66). -/
def State.readBytes (s : State) (a n : Nat) : List Byte := (List.range n).map (fun k => s.memRead (a + k))

/-- The opcode at PC: two reads, big-endian, the second address wrapped (R64, R123). -/
def State.fetch (s : State) : Word := joinBytes (s.memRead s.pc.toNat) (s.memRead (s.pc.toNat + 1))

/-! ## Registers (R21–R23) -/

/-- `V[x]` (R7). -/
def State.getV (s : State) (x : Reg) : Byte := s.v[x]

/-- `V[x] <- b` (R7). -/
def State.setV (s : State) (x : Reg) (b : Byte) : State := { s with v := s.v.set x b }

/-- VF is `V[15]` (R7, R22). -/
def regF : Reg := 15

/-- Write a result and then a flag: V[x] first, VF last, so that with `x = F` the flag stays (R127). -/
def State.setVFlag (s : State) (x : Reg) (result flag : Byte) : State := (s.setV x result).setV regF flag

/-- `I <- w` (R7). -/
def State.setI (s : State) (w : Word) : State := { s with i := w }

/-! ## PC update classes (R125); all arithmetic mod 65536 (R7) -/

/-- `pc <- t` (class `GOTO`). -/
def State.goto (s : State) (t : Word) : State := { s with pc := t }

/-- Class `NEXT`: `pc <- pc0 + 2`. -/
def State.nextPc (s : State) : State := s.goto (s.pc + 2)

/-- Class `SKIP(c)`: `pc <- pc0 + 4` if `c`, else `pc0 + 2`. -/
def State.skipPc (s : State) (c : Bool) : State := s.goto (s.pc + if c then 4 else 2)

/-! ## Taking a fault (R300–R302) -/

/-- Raise a fault: latch `{kind, opcode, pc0}` and write nothing else (R301, R302). There is no return from it but a
successful load (R307). -/
def State.raiseFault (s : State) (k : Fault) (op : Word) : State := { s with fault := some ⟨k, op, s.pc⟩ }

/-! ## Call stack (R25, R26) -/

/-- `length(stack) = STACK_LIMIT`; never with `unbounded` (R26). -/
def State.stackFull (s : State) : Bool := decide (s.cfg.stackLimit = some s.stack.length)

/-- `Push(v)`: none where it raises `StackOverflow` (R26). -/
def State.push (s : State) (w : Word) : Option State :=
  if s.stackFull then none else some { s with stack := s.stack ++ [w] }

/-- `Pop()`: the top and the rest, none where it raises `StackUnderflow` (R26). -/
def State.pop (s : State) : Option (Word × State) :=
  match s.stack.getLast? with
  | none => none
  | some a => some (a, { s with stack := s.stack.dropLast })

/-! ## Timers (R121) -/

/-- One timer in one pass: minus 1 above 0. -/
def countDown (t : Byte) : Byte := if t = 0 then 0 else t - 1

/-- The timer pass of R121. -/
def State.timerPass (s : State) : State := { s with dt := countDown s.dt, st := countDown s.st }

/-- The timers that have a hook (R311). -/
inductive Timer where
  | delay
  | sound
  deriving DecidableEq, Repr

/-- The events of a pass from this state: `TimerHook(t)` for each timer decremented to a value that is not 0, delay
first (R121, R311). -/
def State.timerHooks (s : State) : List Timer :=
  (if countDown s.dt ≠ 0 then [Timer.delay] else []) ++ (if countDown s.st ≠ 0 then [Timer.sound] else [])

/-! ## Framebuffer (R30) -/

/-- `fb[row][col]`; dark outside the matrix. -/
def Framebuffer.pixel (fb : Framebuffer) (row col : Nat) : Bool := (fb.getD row []).getD col false

/-- `fb[row][col] <- fb[row][col] ^ 1`. -/
def Framebuffer.toggle (fb : Framebuffer) (row col : Nat) : Framebuffer :=
  fb.modify row (fun line => line.modify col (fun p => !p))

/-- The matrix has `h` rows of `w` pixels (R30). -/
def Framebuffer.wf (h w : Nat) (fb : Framebuffer) : Bool :=
  fb.length == h && fb.all (fun line => line.length == w)

/-- One lit sprite pixel at (row, col): dropped off-screen (R154); else a collision if the pixel was 1 (R152), and the
XOR. The pair is the framebuffer and the collision so far. -/
def drawPixel (h w row col : Nat) (acc : Framebuffer × Bool) : Framebuffer × Bool :=
  if row < h ∧ col < w then (acc.1.toggle row col, acc.2 || acc.1.pixel row col) else acc

/-- The 8 pixels of one sprite byte at framebuffer row `row`, bit 7 leftmost (R151, R153). -/
def drawRow (h w row cx : Nat) (b : Byte) (acc : Framebuffer × Bool) : Framebuffer × Bool :=
  (List.range 8).foldl (fun acc k => if b.getLsbD (7 - k) then drawPixel h w row (cx + k) acc else acc) acc

/-- The sprite's bytes, one framebuffer row each from row `cy` down (R151, R153). -/
def drawSprite (h w cx : Nat) : Nat → List Byte → Framebuffer × Bool → Framebuffer × Bool
  | _, [], acc => acc
  | cy, b :: rest, acc => drawSprite h w cx (cy + 1) rest (drawRow h w cy cx b acc)

/-! ## Random source (R211) -/

/-- The byte that `draw_rng()` returns now: a free value (log 5). -/
def State.nextRandom (s : State) : Byte := Config.randomByte s.env.draws

/-- `draw_rng()` consumes one draw. -/
def State.drawRandom (s : State) : State := { s with env := { s.env with draws := s.env.draws + 1 } }

end Sys2Proof.Machine
end

