-- ==== Sys2Proof/Machine/Operands.lean ====
section
/-! DEFINITION. The operand forms: register, pair of registers, key code, and the one data addressing mode, index plus
offset (R92, R246, R276). All of an instruction's operands are read from the state before it writes (R126). -/

namespace Sys2Proof.Machine

/-- The memory operand base: I as a number; the k-th byte lies at `EA(I + k)` (R246). -/
def State.indexBase (s : State) : Nat := s.i.toNat

/-- `pressed(v)` of R276: the key's state for a code below 16, false for any other byte. -/
def State.pressed (s : State) (code : Byte) : Bool := s.keys.toList.getD code.toNat false

/-- The block `V[0]`, …, `V[x]` of Fx55 (R244). -/
def State.regBlock (s : State) (x : Reg) : List Byte := s.v.toList.take (x.val + 1)

/-- The registers after Fx65: `V[k] <- MemRead(I + k, 1)` for k in 0..x, the rest as they are (R245). -/
def State.loadBlock (s : State) (x : Reg) : Vector Byte 16 :=
  Vector.ofFn (fun k : Reg => if k ≤ x then s.memRead (s.indexBase + k.val) else s.getV k)

/-- The n bytes of the sprite of Dxyn (R151). -/
def State.spriteBytes (s : State) (n : Nat) : List Byte := s.readBytes s.indexBase n

/-- The target of Bnnn, `V[0] + nnn` (R177). -/
def State.offsetTarget (s : State) (nnn : Word) : Word := BitVec.ofNat 16 ((s.getV 0).toNat + nnn.toNat)

end Sys2Proof.Machine
end

