-- ==== Sys2Proof/Machine/Alu.lean ====
section
/-! DEFINITION. The register ALU (43_alu.md): 6xnn, 7xnn, 8xy0–8xy7, 8xyE, Cxnn. All are class NEXT. -/

namespace Sys2Proof.Machine

/-- 6xnn: `V[x] <- nn` (R200). -/
def execLdImm (x : Reg) (nn : Byte) (s : State) : Host.Outcome State Fault Refusal :=
  .next (s.setV x nn).nextPc

/-- 7xnn: `V[x] <- (V[x] + nn) mod 256`, no flag (R201). -/
def execAddImm (x : Reg) (nn : Byte) (s : State) : Host.Outcome State Fault Refusal :=
  .next (s.setV x (addResult (s.getV x) nn)).nextPc

/-- 8xy0: `V[x] <- V[y]` (R202). -/
def execLdReg (x y : Reg) (s : State) : Host.Outcome State Fault Refusal :=
  .next (s.setV x (s.getV y)).nextPc

/-- 8xy1: bitwise OR, no flag (R203). -/
def execOr (x y : Reg) (s : State) : Host.Outcome State Fault Refusal :=
  .next (s.setV x (s.getV x ||| s.getV y)).nextPc

/-- 8xy2: bitwise AND, no flag (R204). -/
def execAnd (x y : Reg) (s : State) : Host.Outcome State Fault Refusal :=
  .next (s.setV x (s.getV x &&& s.getV y)).nextPc

/-- 8xy3: bitwise XOR, no flag (R205). -/
def execXor (x y : Reg) (s : State) : Host.Outcome State Fault Refusal :=
  .next (s.setV x (s.getV x ^^^ s.getV y)).nextPc

/-- 8xy4: sum and carry (R206). -/
def execAddReg (x y : Reg) (s : State) : Host.Outcome State Fault Refusal :=
  .next (s.setVFlag x (addResult (s.getV x) (s.getV y)) (carryFlag (s.getV x) (s.getV y))).nextPc

/-- 8xy5: `V[x] - V[y]` and the subtract flag (R207, R213). -/
def execSub (x y : Reg) (s : State) : Host.Outcome State Fault Refusal :=
  .next (s.setVFlag x (subResult (s.getV x) (s.getV y)) (subFlag s.cfg.borrow (s.getV x) (s.getV y))).nextPc

/-- 8xy6: `V[x] >> 1` and the bit shifted out; `y` is not read (R208). -/
def execShr (x _y : Reg) (s : State) : Host.Outcome State Fault Refusal :=
  .next (s.setVFlag x (shrResult (s.getV x)) (shrFlag (s.getV x))).nextPc

/-- 8xy7: `V[y] - V[x]` and the subtract flag (R209, R213). -/
def execSubn (x y : Reg) (s : State) : Host.Outcome State Fault Refusal :=
  .next (s.setVFlag x (subResult (s.getV y) (s.getV x)) (subFlag s.cfg.borrow (s.getV y) (s.getV x))).nextPc

/-- 8xyE: `(V[x] << 1) mod 256` and the bit shifted out; `y` is not read (R210). -/
def execShl (x _y : Reg) (s : State) : Host.Outcome State Fault Refusal :=
  .next (s.setVFlag x (shlResult (s.getV x)) (shlFlag (s.getV x))).nextPc

/-- Cxnn: one random draw, masked by `nn` (R211; log 5). -/
def execRnd (x : Reg) (nn : Byte) (s : State) : Host.Outcome State Fault Refusal :=
  .next (s.drawRandom.setV x (s.nextRandom &&& nn)).nextPc

end Sys2Proof.Machine
end

