-- ==== Sys2Proof/Machine/Display.lean ====
section
/-! DEFINITION. Display instructions (41_display.md): 00E0, Dxyn. -/

namespace Sys2Proof.Machine

/-- 00E0: clear the framebuffer and set dirty (R150). -/
def execCls (s : State) : Host.Outcome State Fault Refusal :=
  .next (State.nextPc { s with fb := Framebuffer.blank s.cfg.fbH s.cfg.fbW, dirty := true })

/-- Dxyn: XOR the n-row sprite at I onto the framebuffer at column `V[x]`, row `V[y]`; dirty; VF <- collision
(R151–R154). -/
def execDrw (x y : Reg) (n : Nat) (s : State) : Host.Outcome State Fault Refusal :=
  let drawn := drawSprite s.cfg.fbH s.cfg.fbW (s.getV x).toNat (s.getV y).toNat (s.spriteBytes n) (s.fb, false)
  .next (State.nextPc (State.setV { s with fb := drawn.1, dirty := true } regF (flagByte drawn.2)))

end Sys2Proof.Machine
end

