-- ==== Sys2Proof/Machine/Flow.lean ====
section
/-! DEFINITION. Control transfer and skips (42_flow.md): 00EE, 1nnn, 2nnn, 3xnn, 4xnn, 5xy0, 9xy0, Bnnn. -/

namespace Sys2Proof.Machine

/-- 00EE: `pc <- Pop() + 2`; StackUnderflow on an empty stack (R170). -/
def execRet (s : State) : Host.Outcome State Fault Refusal :=
  match s.pop with
  | none => .next (s.raiseFault .stackUnderflow (encode .ret))
  | some (a, s') => .next (s'.goto (a + 2))

/-- 1nnn: `pc <- nnn` (R171). -/
def execJp (nnn : Word) (s : State) : Host.Outcome State Fault Refusal :=
  .next (s.goto nnn)

/-- 2nnn: `Push(pc0); pc <- nnn`; StackOverflow on a full stack (R172). The latched opcode is this instruction's word
(log 28). -/
def execCall (nnn : Word) (s : State) : Host.Outcome State Fault Refusal :=
  match s.push s.pc with
  | none => .next (s.raiseFault .stackOverflow (encode (.call nnn)))
  | some s' => .next (s'.goto nnn)

/-- 3xnn: skip if `V[x] = nn` (R173). -/
def execSeImm (x : Reg) (nn : Byte) (s : State) : Host.Outcome State Fault Refusal :=
  .next (s.skipPc (s.getV x == nn))

/-- 4xnn: skip if `V[x] ≠ nn` (R174). -/
def execSneImm (x : Reg) (nn : Byte) (s : State) : Host.Outcome State Fault Refusal :=
  .next (s.skipPc (s.getV x != nn))

/-- 5xy0: skip if `V[x] = V[y]` (R175). -/
def execSeReg (x y : Reg) (s : State) : Host.Outcome State Fault Refusal :=
  .next (s.skipPc (s.getV x == s.getV y))

/-- 9xy0: skip if `V[x] ≠ V[y]` (R176). -/
def execSneReg (x y : Reg) (s : State) : Host.Outcome State Fault Refusal :=
  .next (s.skipPc (s.getV x != s.getV y))

/-- Bnnn: `pc <- V[0] + nnn`, not masked to 12 bits (R177). -/
def execJpV0 (nnn : Word) (s : State) : Host.Outcome State Fault Refusal :=
  .next (s.goto (s.offsetTarget nnn))

end Sys2Proof.Machine
end

