-- ==== Sys2Proof/Machine/IndexMemory.lean ====
section
/-! DEFINITION. Index register and memory transfers (44_index_memory.md): Annn, Fx1E, Fx29, Fx33, Fx55, Fx65. All are
class NEXT, and no access changes I (R246). -/

namespace Sys2Proof.Machine

/-- Annn: `I <- nnn` (R240). -/
def execLdI (nnn : Word) (s : State) : Host.Outcome State Fault Refusal :=
  .next (s.setI nnn).nextPc

/-- Fx1E: `I <- (I + V[x]) mod 0x1000`, then VF <- overflow (R241). -/
def execAddI (x : Reg) (s : State) : Host.Outcome State Fault Refusal :=
  .next ((s.setI (indexResult s.i (s.getV x))).setV regF (indexFlag s.i (s.getV x))).nextPc

/-- Fx29: I points at the glyph of the full byte `V[x]` (R242). -/
def execLdF (x : Reg) (s : State) : Host.Outcome State Fault Refusal :=
  .next (s.setI (glyphAddress (s.getV x))).nextPc

/-- Fx33: the decimal digits of `V[x]` at I, I+1, I+2 (R243). -/
def execLdB (x : Reg) (s : State) : Host.Outcome State Fault Refusal :=
  .next (s.storeBytes s.indexBase (bcdDigits (s.getV x))).nextPc

/-- Fx55: V0..V[x] to memory at I (R244). -/
def execStRegs (x : Reg) (s : State) : Host.Outcome State Fault Refusal :=
  .next (s.storeBytes s.indexBase (s.regBlock x)).nextPc

/-- Fx65: V0..V[x] from memory at I (R245). -/
def execLdRegs (x : Reg) (s : State) : Host.Outcome State Fault Refusal :=
  .next (State.nextPc { s with v := s.loadBlock x })

end Sys2Proof.Machine
end

