-- ==== Sys2Proof/Machine/KeysTimers.lean ====
section
/-! DEFINITION. Key polling and timers (45_keys_timers.md): Ex9E, ExA1, Fx07, Fx0A, Fx15, Fx18. -/

namespace Sys2Proof.Machine

/-- Ex9E: skip if the key with code `V[x]` is pressed (R270, R276). -/
def execSkp (x : Reg) (s : State) : Host.Outcome State Fault Refusal :=
  .next (s.skipPc (s.pressed (s.getV x)))

/-- ExA1: skip if the key with code `V[x]` is not pressed (R271, R276). -/
def execSknp (x : Reg) (s : State) : Host.Outcome State Fault Refusal :=
  .next (s.skipPc (!s.pressed (s.getV x)))

/-- Fx07: `V[x] <- DT` (R272). -/
def execLdVxDt (x : Reg) (s : State) : Host.Outcome State Fault Refusal :=
  .next (s.setV x s.dt).nextPc

/-- Fx0A: complete with the recorded key if one was pressed while blocked, else block and hold PC (R273). In a state
that no run reaches, pending without a recorded key, `V[x]` keeps its value (log 29). -/
def execLdVxK (x : Reg) (s : State) : Host.Outcome State Fault Refusal :=
  if s.pendingUnblock then
    .next (State.nextPc (State.setV { s with pendingUnblock := false, lastKey := none } x
      ((s.lastKey.map keyByte).getD (s.getV x))))
  else .next { s with blocked := true }

/-- Fx15: `DT <- V[x]` (R274). -/
def execLdDtVx (x : Reg) (s : State) : Host.Outcome State Fault Refusal :=
  .next (State.nextPc { s with dt := s.getV x })

/-- Fx18: `ST <- V[x]` (R275). -/
def execLdStVx (x : Reg) (s : State) : Host.Outcome State Fault Refusal :=
  .next (State.nextPc { s with st := s.getV x })

end Sys2Proof.Machine
end

