-- ==== Sys2Proof/Machine/HostPort.lean ====
section
/-! DEFINITION. The host interface (R310–R317, R350–R353): what each host action does to the machine and what it
answers, and where the actions land, between ticks (R131). -/

namespace Sys2Proof.Machine

/-- The result of `load` (R351, R352). -/
inductive LoadResult where
  | ok
  | invalidRom
  deriving DecidableEq, Repr

/-- `load(rom)`: the only reset. A ROM of at most 3584 bytes replaces the whole machine by the reset record with the ROM
at 0x200 (R351); a longer one changes nothing (R352). The parameters and the environment are no part of the machine
that a load replaces (logs 4, 5, 6). -/
def State.loadRom (s : State) (rom : List Byte) : State :=
  if rom.length ≤ romMax then
    State.initial s.cfg s.env (Memory.ofBytes (Memory.background s.cfg.font) romBase rom)
  else s

/-- What `load(rom)` returns (R351, R352). -/
def loadResult (rom : List Byte) : LoadResult := if rom.length ≤ romMax then .ok else .invalidRom

/-- `keyDown(c)` (R312; nothing on an Unloaded machine, R353). -/
def State.keyDown (s : State) (c : Key) : State :=
  if s.loaded then
    if s.blocked then
      { s with keys := s.keys.set c true, lastKey := some c, blocked := false, pendingUnblock := true }
    else { s with keys := s.keys.set c true }
  else s

/-- `keyUp(c)` (R313; nothing on an Unloaded machine, R353). -/
def State.keyUp (s : State) (c : Key) : State :=
  if s.loaded then { s with keys := s.keys.set c false } else s

/-- `clearDirty()` (R316; nothing on an Unloaded machine, R353). -/
def State.clearDirty (s : State) : State := if s.loaded then { s with dirty := false } else s

/-- `frame()`: the framebuffer and the dirty flag (R315); all-zero and false on an Unloaded machine (R353). -/
def State.frame (s : State) : Framebuffer × Bool :=
  if s.loaded then (s.fb, s.dirty) else (Framebuffer.blank s.cfg.fbH s.cfg.fbW, false)

/-- `isSoundActive() = (ST ≠ 0)` (R310); false on an Unloaded machine (R353). -/
def State.isSoundActive (s : State) : Bool := s.loaded && decide (s.st ≠ 0)

/-- The effect of one host action (R317). -/
def State.act (s : State) : HostAction → State
  | .load rom => s.loadRom rom
  | .keyDown c => s.keyDown c
  | .keyUp c => s.keyUp c
  | .clearDirty => s.clearDirty
  | .frame => s
  | .isSoundActive => s

/-- What a host action answers to the host (R317). -/
inductive HostReply where
  | done
  | load (r : LoadResult)
  | frame (fb : Framebuffer) (dirty : Bool)
  | soundActive (b : Bool)
  deriving DecidableEq, Repr

/-- The answer of one host action made in this state (R317); it has no effect of its own. -/
def State.reply (s : State) : HostAction → HostReply
  | .load rom => .load (loadResult rom)
  | .keyDown _ => .done
  | .keyUp _ => .done
  | .clearDirty => .done
  | .frame => .frame s.frame.1 s.frame.2
  | .isSoundActive => .soundActive s.isSoundActive

/-- The actions of a batch, one at a time, in order (R131). -/
def State.acts (s : State) (batch : List HostAction) : State := batch.foldl State.act s

/-- The host's actions that land before the next tick: the next batch of the schedule, taken off it (R131; log 4). -/
def State.deliver (s : State) : State :=
  match s.env.inputs with
  | [] => s
  | batch :: rest => State.acts { s with env := { s.env with inputs := rest } } batch

end Sys2Proof.Machine
end

