-- ==== Sys2Proof/Machine/Tick.lean ====
section
/-! DEFINITION. The execution cycle (40_cycle.md): the tick, the Interpreter step, and what a tick shows the host. -/

namespace Sys2Proof.Machine

/-- One Interpreter step: fetch, decode, execute (R123). A word that does not decode raises `UnknownOpcode`. -/
def interpret (s : State) : Host.Outcome State Fault Refusal :=
  match decodeWord s.fetch with
  | .instr i => exec i s
  | .unknownOpcode op => .next (s.raiseFault .unknownOpcode op)

/-- `tick()` (R120): nothing when Unloaded (R353) or faulted (R303); else the timer pass and then, unless blocked (R122),
one Interpreter step. -/
def tick (s : State) : Host.Outcome State Fault Refusal :=
  if s.loaded = false then .next s
  else if s.fault.isSome then .next s
  else if s.blocked then .next s.timerPass
  else interpret s.timerPass

/-- What `tick()` returns to the host (R128). -/
inductive TickResult where
  | ok
  | fault (r : FaultRecord)
  deriving DecidableEq, Repr

/-- The return value of the tick that ended in this state: `Ok` from an Unloaded machine (R353), else `Fault` with the
latched record or, with none, `Ok` (R120, R302, R303). -/
def State.tickResult (s : State) : TickResult :=
  if s.loaded = false then .ok
  else match s.fault with
    | none => .ok
    | some r => .fault r

/-- The `TimerHook` events that a tick from this state emits (R120, R121, R311). -/
def State.tickHooks (s : State) : List Timer :=
  if s.loaded = false then [] else if s.fault.isSome then [] else s.timerHooks

end Sys2Proof.Machine
end

