-- ==== Sys2Proof/Machine/Step.lean ====
section
/-! DEFINITION. One step of the machine: the host's actions that land before the next tick, then that tick (R120, R131). -/

namespace Sys2Proof.Machine

/-- One step: deliver the next batch of host actions, then one tick (log 4). -/
def step (s : State) : Host.Outcome State Fault Refusal := tick s.deliver

/-- `s` with the table word `w` of `nbits` bits stored at PC, big-endian (R64), and the next tick made to run it: the
machine loaded, no fault latched, Fx0A not waiting, no host action before that tick (log 23). -/
def State.withFetchWord (s : State) (nbits w : Nat) : State :=
  let op : Word := BitVec.ofNat 16 (w % 2 ^ nbits)
  let s1 := s.storeBytes s.pc.toNat [highByte op, lowByte op]
  { s1 with
    loaded := true, fault := none, blocked := false,
    env := { s1.env with inputs := match s1.env.inputs with
                                   | [] => []
                                   | _ :: rest => [] :: rest } }

end Sys2Proof.Machine
end

