-- ==== Sys2Proof/Safety.lean ====
section
/-! DEFINITION. The terms claims use: what a safe run is, the invariant of the machine, and what an instruction leaves
unchanged. Nothing here is used by the machine. -/

namespace Sys2Proof.Machine

/-! ## Running and safe -/

/-- A tick from here executes an instruction: loaded, no fault latched, Fx0A not waiting (R129). -/
def State.running (s : State) : Bool := s.loaded && s.fault.isNone && !s.blocked

/-- Safe: no fault is latched (R303: a faulted machine refutes any claim of a fault-free run). -/
def State.safe (s : State) : Bool := s.fault.isNone

/-- What R355 asks of a program at its next instruction: it is a legal word, no return with an empty stack, no call with
a full one. -/
def State.wellBehaved (s : State) : Prop :=
  (∀ op, decodeWord s.fetch ≠ .unknownOpcode op) ∧
  (decodeWord s.fetch = .instr .ret → s.stack ≠ []) ∧
  (∀ nnn, decodeWord s.fetch = .instr (.call nnn) → s.cfg.stackLimit ≠ some s.stack.length)

/-- The batch of host actions that lands before the next tick (R131). -/
def State.nextBatch (s : State) : List HostAction := s.env.inputs.headD []

/-- The host action is a `load` that succeeds (R351). -/
def HostAction.isGoodLoad : HostAction → Bool
  | .load rom => decide (rom.length ≤ romMax)
  | .keyDown _ => false
  | .keyUp _ => false
  | .clearDirty => false
  | .frame => false
  | .isSoundActive => false

/-- The host action ends an Fx0A wait: a keyDown, or a successful load (R320). -/
def HostAction.endsWait : HostAction → Bool
  | .load rom => decide (rom.length ≤ romMax)
  | .keyDown _ => true
  | .keyUp _ => false
  | .clearDirty => false
  | .frame => false
  | .isSoundActive => false

/-! ## The invariant -/

/-- Memory is in canonical form (log 7). -/
def State.memOk (s : State) : Bool := Memory.wf s.background s.mem

/-- I holds a 12-bit value (R23). -/
def State.indexOk (s : State) : Bool := decide (s.i.toNat ≤ 0xFFF)

/-- The stack's length is at most `STACK_LIMIT` (R20, R25). -/
def State.stackOk (s : State) : Bool :=
  match s.cfg.stackLimit with
  | none => true
  | some n => decide (s.stack.length ≤ n)

/-- The framebuffer is an `FB_H` × `FB_W` matrix (R30). -/
def State.displayOk (s : State) : Bool := Framebuffer.wf s.cfg.fbH s.cfg.fbW s.fb

/-- The word at PC is an Fx0A. -/
def State.waitsHere (s : State) : Bool := decide (∃ x, decodeWord s.fetch = .instr (.ldVxK x))

/-- R32's invariants: blocked and pending never both; a key is recorded just while one is pending; and while either
holds, the instruction at PC is the Fx0A. -/
def State.blockOk (s : State) : Bool :=
  !(s.blocked && s.pendingUnblock) && (s.pendingUnblock == s.lastKey.isSome) &&
    (!(s.blocked || s.pendingUnblock) || s.waitsHere)

/-- The condition under which R300 raises each kind, at this state. -/
def State.raises (s : State) : Fault → Bool
  | .unknownOpcode => decide (decodeWord s.fetch = .unknownOpcode s.fetch)
  | .stackUnderflow => decide (decodeWord s.fetch = .instr .ret) && s.stack.isEmpty
  | .stackOverflow => decide (decodeWord s.fetch = .instr (.call (opNNN s.fetch))) && s.stackFull

/-- A latched fault is the record of the instruction at PC, whose condition still stands, and Fx0A is not waiting
(R300, R301, R303). -/
def State.faultOk (s : State) : Bool :=
  match s.fault with
  | none => true
  | some r => decide (r.opcode = s.fetch) && decide (r.pc = s.pc) && !s.blocked && s.raises r.kind

/-- An Unloaded machine holds nothing (R353; log 2). -/
def State.loadedOk (s : State) : Bool := s.loaded || decide (s = State.powerOn s.cfg s.env)

/-- The invariant of the machine. -/
def State.inv (s : State) : Bool :=
  s.memOk && s.indexOk && s.stackOk && s.displayOk && s.blockOk && s.faultOk && s.loadedOk

/-! ## What stays -/

/-- Every `V` register outside `ds` reads as before. -/
def RegsKept (s t : State) (ds : List Reg) : Prop := ∀ r, r ∉ ds → t.getV r = s.getV r

/-- Every byte of memory reads as before. -/
def MemKept (s t : State) : Prop := ∀ a, t.memRead a = s.memRead a

/-- Every byte of memory outside the `n` bytes from `base` up (mod 4096) reads as before. -/
def MemKeptOutside (s t : State) (base n : Nat) : Prop :=
  ∀ a, (∀ k, k < n → effAddr a ≠ effAddr (base + k)) → t.memRead a = s.memRead a

/-- The byte at address `a` once `bs` has been stored from I up: the byte of `bs` whose place `EA(I + k)` is `EA(a)`, and
outside `bs` the byte that is there now (R61, R246). The distance of `a` from I is taken mod 4096. -/
def State.byteAfterStore (s : State) (bs : List Byte) (a : Nat) : Byte :=
  bs.getD ((a + 65536 - s.i.toNat) % 4096) (s.memRead a)

/-- A register-only instruction's frame: only the registers `ds` and PC may differ; no byte of memory does. -/
def OnlyRegs (s t : State) (ds : List Reg) : Prop :=
  RegsKept s t ds ∧ MemKept s t ∧ t = { s with v := t.v, pc := t.pc }

/-! ## What each instruction may write (R22, R125, and each instruction's rule) -/

/-- The `V` registers an instruction may write: its destination, VF where it writes a flag, V0..V[x] for Fx65. -/
def instrWrites : Instr → List Reg
  | .cls => []
  | .ret => []
  | .jp _ => []
  | .call _ => []
  | .seImm _ _ => []
  | .sneImm _ _ => []
  | .seReg _ _ => []
  | .ldImm x _ => [x]
  | .addImm x _ => [x]
  | .ldReg x _ => [x]
  | .or x _ => [x]
  | .and x _ => [x]
  | .xor x _ => [x]
  | .addReg x _ => [x, regF]
  | .sub x _ => [x, regF]
  | .shr x _ => [x, regF]
  | .subn x _ => [x, regF]
  | .shl x _ => [x, regF]
  | .sneReg _ _ => []
  | .ldI _ => []
  | .jpV0 _ => []
  | .rnd x _ => [x]
  | .drw _ _ _ => [regF]
  | .skp _ => []
  | .sknp _ => []
  | .ldVxDt x => [x]
  | .ldVxK x => [x]
  | .ldDtVx _ => []
  | .ldStVx _ => []
  | .addI _ => [regF]
  | .ldF _ => []
  | .ldB _ => []
  | .stRegs _ => []
  | .ldRegs x => (List.finRange 16).filter (fun k => decide (k ≤ x))

/-- The PC update classes of R125. -/
inductive PcClass where
  | next
  | skip
  | goto
  | ret
  | hold
  deriving DecidableEq, Repr

/-- The class of an instruction (R125); Fx0A is HOLD when it blocks and NEXT when it completes. -/
def pcClassOf : Instr → PcClass
  | .cls => .next
  | .ret => .ret
  | .jp _ => .goto
  | .call _ => .goto
  | .seImm _ _ => .skip
  | .sneImm _ _ => .skip
  | .seReg _ _ => .skip
  | .ldImm _ _ => .next
  | .addImm _ _ => .next
  | .ldReg _ _ => .next
  | .or _ _ => .next
  | .and _ _ => .next
  | .xor _ _ => .next
  | .addReg _ _ => .next
  | .sub _ _ => .next
  | .shr _ _ => .next
  | .subn _ _ => .next
  | .shl _ _ => .next
  | .sneReg _ _ => .skip
  | .ldI _ => .next
  | .jpV0 _ => .goto
  | .rnd _ _ => .next
  | .drw _ _ _ => .next
  | .skp _ => .skip
  | .sknp _ => .skip
  | .ldVxDt _ => .next
  | .ldVxK _ => .hold
  | .ldDtVx _ => .next
  | .ldStVx _ => .next
  | .addI _ => .next
  | .ldF _ => .next
  | .ldB _ => .next
  | .stRegs _ => .next
  | .ldRegs _ => .next

/-- The 16-bit word of value `w` is an encoding of the instruction (R94). -/
abbrev IsWordOf (w : Nat) (i : Instr) : Prop := decodeWord (BitVec.ofNat 16 w) = .instr i

/-! ## The default font -/

/-- The 80 bytes of the default FONT, glyph by glyph as the table of 10_state.md section 12 writes them (D16; log 8). -/
def fontTable : List Byte :=
  [0xF0, 0x90, 0x90, 0x90, 0xF0] ++ [0x20, 0x60, 0x20, 0x20, 0x70] ++ [0xF0, 0x10, 0xF0, 0x80, 0xF0] ++
  [0xF0, 0x10, 0xF0, 0x10, 0xF0] ++ [0x90, 0x90, 0xF0, 0x10, 0x10] ++ [0xF0, 0x80, 0xF0, 0x10, 0xF0] ++
  [0xF0, 0x80, 0xF0, 0x90, 0xF0] ++ [0xF0, 0x10, 0x20, 0x40, 0x40] ++ [0xF0, 0x90, 0xF0, 0x90, 0xF0] ++
  [0xF0, 0x90, 0xF0, 0x10, 0xF0] ++ [0xF0, 0x90, 0xF0, 0x90, 0x90] ++ [0xE0, 0x90, 0xE0, 0x90, 0xE0] ++
  [0xF0, 0x80, 0x80, 0x80, 0xF0] ++ [0xE0, 0x90, 0x90, 0x90, 0xE0] ++ [0xF0, 0x80, 0xF0, 0x80, 0xF0] ++
  [0xF0, 0x80, 0xF0, 0x80, 0x80]

/-! ## Sprites -/

/-- The sprite of `Dxyn` has an on-screen 1 bit for the pixel (row, col): R151, R153, R154. -/
def State.spriteLit (s : State) (x y : Reg) (n row col : Nat) : Bool :=
  decide ((s.getV y).toNat ≤ row) && decide (row < (s.getV y).toNat + n) && decide (row < s.cfg.fbH) &&
  decide ((s.getV x).toNat ≤ col) && decide (col < (s.getV x).toNat + 8) && decide (col < s.cfg.fbW) &&
  (s.memRead (s.i.toNat + (row - (s.getV y).toNat))).getLsbD (7 - (col - (s.getV x).toNat))

end Sys2Proof.Machine
end

