-- ==== Sys2Proof/Certificates/Slice0/Obligations.lean ====
section
/-! DEFINITION. The statements for the provers. Each docstring names the rule or section of spec/ it formalises; where a
statement rests on a decision of the spec (D<n>) or on a choice of the model (log <n>), the docstring says so. -/

open Sys2Proof Sys2Proof.Machine

/-! ## Encoding -/

/-- Words written out from the spec's own examples decode to the instructions they stand for (30_encoding.md section 2,
the examples of 41 to 45), and the illegal words of V-CY-7 do not decode (D4). -/
def Obligations.SampleWordsDecode : Prop :=
  IsWordOf 0x00E0 .cls ∧ IsWordOf 0x00EE .ret ∧ IsWordOf 0x120C (.jp 0x20C) ∧ IsWordOf 0x2210 (.call 0x210) ∧
  IsWordOf 0x3307 (.seImm 3 7) ∧ IsWordOf 0x9120 (.sneReg 1 2) ∧ IsWordOf 0x652A (.ldImm 5 0x2A) ∧
  IsWordOf 0x8014 (.addReg 0 1) ∧ IsWordOf 0x840E (.shl 4 0) ∧ IsWordOf 0xA300 (.ldI 0x300) ∧
  IsWordOf 0xC00F (.rnd 0 0x0F) ∧ IsWordOf 0xD125 (.drw 1 2 5) ∧ IsWordOf 0xE19E (.skp 1) ∧
  IsWordOf 0xF30A (.ldVxK 3) ∧ IsWordOf 0xFA33 (.ldB 0xA) ∧ IsWordOf 0xF265 (.ldRegs 2) ∧
  ∀ w ∈ [0x5121, 0x9125, 0x800F, 0x8008, 0xE09F, 0xF000, 0xF0FF, 0x0123, 0x00E1], ∀ i, ¬ IsWordOf w i

/-- Decoding the encoding of any well-formed instruction gives it back, with every operand at every value its field
admits (30_encoding.md sections 1 to 3). -/
def Obligations.DecodeOfEncode : Prop :=
  ∀ i : Instr, i.wf = true → decodeWord (encode i) = .instr i

/-- A word that decodes is the encoding of the instruction it decodes to, and that instruction is well-formed. -/
def Obligations.EncodeOfDecode : Prop :=
  ∀ (op : Word) (i : Instr), decodeWord op = .instr i → i.wf = true ∧ encode i = op

/-- The two-level dispatch of R95 agrees with the opcode map of R94 on every word: a word that decodes lies in exactly
one row, the one with the instruction's name; a word that does not lies in none, and the rejection names it (fixed
nibbles are literal: D4). -/
def Obligations.DecoderFollowsOpcodeMap : Prop :=
  ∀ op : Word,
    (∀ i, decodeWord op = .instr i → (opcodeMap.filter (fun r => r.hits op)).map (fun r => r.name) = [i.name]) ∧
    (∀ op', decodeWord op = .unknownOpcode op' → op' = op ∧ opcodeMap.filter (fun r => r.hits op) = [])

/-! ## Register ALU -/

/-- R200, R201, R202: immediate load, immediate add (wraps, no flag), register copy. -/
def Obligations.LoadAndAddImmediateResults : Prop :=
  ∀ (s : State) (x y : Reg) (nn : Byte),
    (IsWordOf (0x6000 + 256 * x.val + nn.toNat) (.ldImm x nn) ∧
      ∃ t, exec (.ldImm x nn) s = .next t ∧ t.getV x = nn ∧ t.pc = s.pc + 2 ∧ OnlyRegs s t [x]) ∧
    (IsWordOf (0x7000 + 256 * x.val + nn.toNat) (.addImm x nn) ∧
      ∃ t, exec (.addImm x nn) s = .next t ∧ (t.getV x).toNat = ((s.getV x).toNat + nn.toNat) % 256 ∧
        t.pc = s.pc + 2 ∧ OnlyRegs s t [x]) ∧
    (IsWordOf (0x8000 + 256 * x.val + 16 * y.val) (.ldReg x y) ∧
      ∃ t, exec (.ldReg x y) s = .next t ∧ t.getV x = s.getV y ∧ t.pc = s.pc + 2 ∧ OnlyRegs s t [x])

/-- 8xy1, 8xy2, 8xy3 bit by bit; VF is unchanged unless it is the destination (D11). -/
def Obligations.BitwiseResults : Prop :=
  ∀ (s : State) (x y : Reg),
    (∃ t, exec (.or x y) s = .next t ∧ t.pc = s.pc + 2 ∧ OnlyRegs s t [x] ∧
      ∀ k, (t.getV x).getLsbD k = ((s.getV x).getLsbD k || (s.getV y).getLsbD k)) ∧
    (∃ t, exec (.and x y) s = .next t ∧ t.pc = s.pc + 2 ∧ OnlyRegs s t [x] ∧
      ∀ k, (t.getV x).getLsbD k = ((s.getV x).getLsbD k && (s.getV y).getLsbD k)) ∧
    (∃ t, exec (.xor x y) s = .next t ∧ t.pc = s.pc + 2 ∧ OnlyRegs s t [x] ∧
      ∀ k, (t.getV x).getLsbD k = ((s.getV x).getLsbD k ^^ (s.getV y).getLsbD k))

/-- R206: the sum mod 256 in V[x], then the carry in VF; with x = F the carry stays. -/
def Obligations.AddRegistersWithCarry : Prop :=
  ∀ (s : State) (x y : Reg),
    IsWordOf (0x8004 + 256 * x.val + 16 * y.val) (.addReg x y) ∧
    ∃ t, exec (.addReg x y) s = .next t ∧ t.pc = s.pc + 2 ∧ OnlyRegs s t [x, regF] ∧
      (x ≠ regF → (t.getV x).toNat = ((s.getV x).toNat + (s.getV y).toNat) % 256) ∧
      t.getV regF = if (s.getV x).toNat + (s.getV y).toNat > 255 then 1 else 0

/-- 8xy5 and 8xy7 under either BORROW_POLARITY (43_alu.md, the arithmetic laws; D10): the difference mod 256 in V[x], then
the subtract flag in VF. -/
def Obligations.SubtractResults : Prop :=
  ∀ (s : State) (x y : Reg),
    (∃ t, exec (.sub x y) s = .next t ∧ t.pc = s.pc + 2 ∧ OnlyRegs s t [x, regF] ∧
      (x ≠ regF → (t.getV x).toNat = (256 + (s.getV x).toNat - (s.getV y).toNat) % 256) ∧
      (s.cfg.borrow = .source → t.getV regF = if (s.getV x).toNat < (s.getV y).toNat then 1 else 0) ∧
      (s.cfg.borrow = .canonical → t.getV regF = if (s.getV y).toNat ≤ (s.getV x).toNat then 1 else 0)) ∧
    (∃ t, exec (.subn x y) s = .next t ∧ t.pc = s.pc + 2 ∧ OnlyRegs s t [x, regF] ∧
      (x ≠ regF → (t.getV x).toNat = (256 + (s.getV y).toNat - (s.getV x).toNat) % 256) ∧
      (s.cfg.borrow = .source → t.getV regF = if (s.getV y).toNat < (s.getV x).toNat then 1 else 0) ∧
      (s.cfg.borrow = .canonical → t.getV regF = if (s.getV x).toNat ≤ (s.getV y).toNat then 1 else 0))

/-- R208, R210: V[x] shifted by one, then the bit shifted out in VF; V[y] is not read. -/
def Obligations.ShiftResults : Prop :=
  ∀ (s : State) (x y : Reg),
    (IsWordOf (0x8006 + 256 * x.val + 16 * y.val) (.shr x y) ∧
      ∃ t, exec (.shr x y) s = .next t ∧ t.pc = s.pc + 2 ∧ OnlyRegs s t [x, regF] ∧
        (x ≠ regF → (t.getV x).toNat = (s.getV x).toNat / 2) ∧ (t.getV regF).toNat = (s.getV x).toNat % 2) ∧
    (IsWordOf (0x800E + 256 * x.val + 16 * y.val) (.shl x y) ∧
      ∃ t, exec (.shl x y) s = .next t ∧ t.pc = s.pc + 2 ∧ OnlyRegs s t [x, regF] ∧
        (x ≠ regF → (t.getV x).toNat = 2 * (s.getV x).toNat % 256) ∧ (t.getV regF).toNat = (s.getV x).toNat / 128)

/-- R127: where an instruction writes both V[x] and a flag and x = F, the flag is what VF holds; Fx1E and Dxyn write no
V[x] at all, only I or the framebuffer and then VF. The subtract flag is the one of the machine's BORROW_POLARITY. -/
def Obligations.FlagIsWrittenLast : Prop :=
  ∀ (s : State) (y : Reg),
    (∃ t, exec (.addReg regF y) s = .next t ∧
      t.getV regF = if (s.getV regF).toNat + (s.getV y).toNat > 255 then 1 else 0) ∧
    (∃ t, exec (.sub regF y) s = .next t ∧ t.getV regF = subFlag s.cfg.borrow (s.getV regF) (s.getV y)) ∧
    (∃ t, exec (.shr regF y) s = .next t ∧ (t.getV regF).toNat = (s.getV regF).toNat % 2) ∧
    (∃ t, exec (.subn regF y) s = .next t ∧ t.getV regF = subFlag s.cfg.borrow (s.getV y) (s.getV regF)) ∧
    (∃ t, exec (.shl regF y) s = .next t ∧ (t.getV regF).toNat = (s.getV regF).toNat / 128) ∧
    (∃ t, exec (.addI regF) s = .next t ∧ t.i.toNat = (s.i.toNat + (s.getV regF).toNat) % 0x1000 ∧
      t.getV regF = if s.i.toNat + (s.getV regF).toNat > 0xFFF then 1 else 0) ∧
    ∀ x : Reg, (∃ t, exec (.addI x) s = .next t ∧ RegsKept s t [regF]) ∧
      ∀ n, ∃ t, exec (.drw x y n) s = .next t ∧ RegsKept s t [regF] ∧ (t.getV regF = 0 ∨ t.getV regF = 1)

/-- Cxnn (D12): V[x] is this draw's byte masked by nn, whatever the draw is; exactly one draw is made. The draw is a
free value (log 5): the statement holds for every value of the draw counter. -/
def Obligations.RandomByteMasked : Prop :=
  ∀ (s : State) (x : Reg) (nn : Byte),
    ∃ t, exec (.rnd x nn) s = .next t ∧ t.getV x = Config.randomByte s.env.draws &&& nn ∧
      (∀ k, (t.getV x).getLsbD k = true → nn.getLsbD k = true) ∧ t.pc = s.pc + 2 ∧
      RegsKept s t [x] ∧ MemKept s t ∧
      t = { s with v := t.v, pc := t.pc, env := { s.env with draws := s.env.draws + 1 } }

/-! ## Control flow -/

/-- 1nnn and Bnnn (42_flow.md): the jumps. Only PC changes. That Bnnn's target is not masked to 12 bits is decision D2 of
the spec (log 11), and that the fetch there reads from it mod 4096 is its decision D1 (log 10). -/
def Obligations.JumpTargets : Prop :=
  ∀ (s : State) (nnn : Word), nnn.toNat < 0x1000 →
    (IsWordOf (0x1000 + nnn.toNat) (.jp nnn) ∧
      ∃ t, exec (.jp nnn) s = .next t ∧ t.pc = nnn ∧ OnlyRegs s t []) ∧
    (IsWordOf (0xB000 + nnn.toNat) (.jpV0 nnn) ∧
      ∃ t, exec (.jpV0 nnn) s = .next t ∧ t.pc.toNat = (s.getV 0).toNat + nnn.toNat ∧ OnlyRegs s t [] ∧
        t.fetch.toNat = 256 * (s.memRead (t.pc.toNat % 4096)).toNat + (s.memRead ((t.pc.toNat + 1) % 4096)).toNat)

/-- R173, R174: the immediate skips. Only PC changes. -/
def Obligations.ImmediateSkips : Prop :=
  ∀ (s : State) (x : Reg) (nn : Byte),
    (IsWordOf (0x3000 + 256 * x.val + nn.toNat) (.seImm x nn) ∧
      ∃ t, exec (.seImm x nn) s = .next t ∧ OnlyRegs s t [] ∧
        (s.getV x = nn → t.pc = s.pc + 4) ∧ (s.getV x ≠ nn → t.pc = s.pc + 2)) ∧
    (IsWordOf (0x4000 + 256 * x.val + nn.toNat) (.sneImm x nn) ∧
      ∃ t, exec (.sneImm x nn) s = .next t ∧ OnlyRegs s t [] ∧
        (s.getV x ≠ nn → t.pc = s.pc + 4) ∧ (s.getV x = nn → t.pc = s.pc + 2))

/-- 5xy0 and 9xy0 (42_flow.md): the register skips, and the words with another low nibble do not decode (D4). -/
def Obligations.RegisterSkips : Prop :=
  ∀ (s : State) (x y : Reg),
    (IsWordOf (0x5000 + 256 * x.val + 16 * y.val) (.seReg x y) ∧
      ∃ t, exec (.seReg x y) s = .next t ∧ OnlyRegs s t [] ∧
        (s.getV x = s.getV y → t.pc = s.pc + 4) ∧ (s.getV x ≠ s.getV y → t.pc = s.pc + 2)) ∧
    (IsWordOf (0x9000 + 256 * x.val + 16 * y.val) (.sneReg x y) ∧
      ∃ t, exec (.sneReg x y) s = .next t ∧ OnlyRegs s t [] ∧
        (s.getV x ≠ s.getV y → t.pc = s.pc + 4) ∧ (s.getV x = s.getV y → t.pc = s.pc + 2)) ∧
    (∀ n i, 0 < n → n < 16 → ¬ IsWordOf (0x5000 + 256 * x.val + 16 * y.val + n) i ∧
      ¬ IsWordOf (0x9000 + 256 * x.val + 16 * y.val + n) i)

/-- 2nnn on a stack with room and 00EE on a stack that is not empty (42_flow.md; D8, D9): the call pushes its own
address, the return pops and advances by 2. Nothing else changes. -/
def Obligations.CallAndReturnResults : Prop :=
  ∀ s : State,
    (∀ nnn, s.cfg.stackLimit ≠ some s.stack.length →
      ∃ t, exec (.call nnn) s = .next t ∧ t.stack = s.stack ++ [s.pc] ∧ t.pc = nnn ∧ RegsKept s t [] ∧ MemKept s t ∧
        t = { s with stack := t.stack, pc := t.pc }) ∧
    (∀ st a, s.stack = st ++ [a] →
      ∃ t, exec .ret s = .next t ∧ t.stack = st ∧ t.pc = a + 2 ∧ RegsKept s t [] ∧ MemKept s t ∧
        t = { s with stack := t.stack, pc := t.pc })

/-- L1-5 (D8): a call, and later a return with the stack as the call left it, resumes right after the call with the
stack as it was before. -/
def Obligations.CallThenReturnResumes : Prop :=
  ∀ (s t u : State) (nnn : Word), s.cfg.stackLimit ≠ some s.stack.length → exec (.call nnn) s = .next t →
    u.stack = t.stack → ∃ w, exec .ret u = .next w ∧ w.pc = s.pc + 2 ∧ w.stack = s.stack

/-- Where CALL and RET fault (10_state.md section 5, 60_exceptions.md section 1; D9): with a full stack or an empty one the
only change is the latched record, which carries the kind, the opcode and the PC; with no limit a call never faults. -/
def Obligations.CallAndReturnFaults : Prop :=
  ∀ s : State,
    (∀ nnn, s.cfg.stackLimit = some s.stack.length →
      ∃ op, op.toNat = (0x2000 + nnn.toNat) % 65536 ∧
        exec (.call nnn) s = .next { s with fault := some ⟨.stackOverflow, op, s.pc⟩ }) ∧
    (s.stack = [] → exec .ret s = .next { s with fault := some ⟨.stackUnderflow, 0x00EE, s.pc⟩ }) ∧
    (∀ nnn t, s.cfg.stackLimit = none → exec (.call nnn) s = .next t → t.fault = s.fault)

/-! ## Index register and memory -/

/-- R240, R241, R242: the three writers of I. -/
def Obligations.IndexResults : Prop :=
  ∀ (s : State) (x : Reg) (nnn : Word),
    ((nnn.toNat < 0x1000 → IsWordOf (0xA000 + nnn.toNat) (.ldI nnn)) ∧
      ∃ t, exec (.ldI nnn) s = .next t ∧ t.i = nnn ∧ t.pc = s.pc + 2 ∧ RegsKept s t [] ∧ MemKept s t ∧
        t = { s with i := t.i, pc := t.pc }) ∧
    (IsWordOf (0xF01E + 256 * x.val) (.addI x) ∧
      ∃ t, exec (.addI x) s = .next t ∧ t.i.toNat = (s.i.toNat + (s.getV x).toNat) % 0x1000 ∧
        t.getV regF = (if s.i.toNat + (s.getV x).toNat > 0xFFF then 1 else 0) ∧ t.pc = s.pc + 2 ∧
        RegsKept s t [regF] ∧ MemKept s t ∧ t = { s with i := t.i, v := t.v, pc := t.pc }) ∧
    (IsWordOf (0xF029 + 256 * x.val) (.ldF x) ∧
      ∃ t, exec (.ldF x) s = .next t ∧ t.i.toNat = 0x50 + 5 * (s.getV x).toNat ∧ t.pc = s.pc + 2 ∧
        RegsKept s t [] ∧ MemKept s t ∧ t = { s with i := t.i, pc := t.pc })

/-- Fx33 (44_index_memory.md; D1, D15): the decimal digits of V[x] at I, I+1, I+2, addresses wrapping; every other byte, I
and the rest are as before. Premise: memory is canonical, which every step keeps. -/
def Obligations.StoreDecimalDigits : Prop :=
  ∀ (s : State) (x : Reg), s.memOk = true →
    ∃ t, exec (.ldB x) s = .next t ∧ (t.memRead s.i.toNat).toNat = (s.getV x).toNat / 100 ∧
      (t.memRead (s.i.toNat + 1)).toNat = (s.getV x).toNat / 10 % 10 ∧
      (t.memRead (s.i.toNat + 2)).toNat = (s.getV x).toNat % 10 ∧
      t.pc = s.pc + 2 ∧ RegsKept s t [] ∧ MemKeptOutside s t s.i.toNat 3 ∧
      t = { s with mem := t.mem, pc := t.pc }

/-- Fx55 and Fx65 (44_index_memory.md; D1, D15): V0..V[x] to memory at I, and back; I is unchanged. Premise: memory is
canonical, which every step keeps. -/
def Obligations.RegisterBlockTransfers : Prop :=
  ∀ (s : State) (x : Reg), s.memOk = true →
    (∃ t, exec (.stRegs x) s = .next t ∧ (∀ k : Reg, k ≤ x → t.memRead (s.i.toNat + k.val) = s.getV k) ∧
      t.pc = s.pc + 2 ∧ RegsKept s t [] ∧ MemKeptOutside s t s.i.toNat (x.val + 1) ∧
      t = { s with mem := t.mem, pc := t.pc }) ∧
    (∃ t, exec (.ldRegs x) s = .next t ∧ (∀ k : Reg, k ≤ x → t.getV k = s.memRead (s.i.toNat + k.val)) ∧
      (∀ k : Reg, x < k → t.getV k = s.getV k) ∧ t.pc = s.pc + 2 ∧ MemKept s t ∧
      t = { s with v := t.v, pc := t.pc })

/-- Fx55 then Fx65 with the same x from the same I gives every register back (44_index_memory.md): storing a block and
loading it again, whatever the registers held in between. Premise: memory is canonical. -/
def Obligations.StoreThenLoadBlockRestores : Prop :=
  ∀ (s t u : State) (x : Reg), s.memOk = true → exec (.stRegs x) s = .next t →
    u.mem = t.mem → u.cfg = t.cfg → u.i = s.i →
    ∃ w, exec (.ldRegs x) u = .next w ∧ ∀ k : Reg, k ≤ x → w.getV k = s.getV k

/-- A byte read returns the last value written to its effective address, and a write changes no other address
(20_memory.md section 2). The effective address is a mod 4096 by decision D1 of the spec (log 10). Premise: memory is
canonical, which the write keeps; that form is the model's own (log 7). -/
def Obligations.MemoryReadAfterWrite : Prop :=
  ∀ (s : State) (a c : Nat) (b : Byte), s.memOk = true →
    (effAddr c = effAddr a → (s.memWrite a b).memRead c = b) ∧
    (effAddr c ≠ effAddr a → (s.memWrite a b).memRead c = s.memRead c) ∧
    (s.memWrite a b).memOk = true

/-- Every access goes through EA(a) = a mod 4096 (20_memory.md section 2; D1): reads, writes and the fetch see an address
and that address plus 4096 alike. -/
def Obligations.AddressesWrap : Prop :=
  ∀ (s : State) (a : Nat) (b : Byte),
    s.memRead (a + 4096) = s.memRead a ∧ s.memWrite (a + 4096) b = s.memWrite a b ∧
    ∀ w : Word, w.toNat % 4096 = s.pc.toNat % 4096 → (s.goto w).fetch = s.fetch

/-- The fetched opcode is the byte at PC times 256 plus the byte after it (20_memory.md section 3). That both addresses
are taken mod 4096 is decision D1 of the spec (log 10). -/
def Obligations.FetchIsBigEndian : Prop :=
  ∀ s : State, s.fetch.toNat = 256 * (s.memRead s.pc.toNat).toNat + (s.memRead ((s.pc.toNat + 1) % 4096)).toNat

/-- Self-modifying code (20_memory.md section 5; D3): after Fx55 and after Fx33, wherever I and PC are, each of the two
bytes that the next fetch reads is the byte just stored there, if the store reached it (one byte, both, or none; places
compared mod 4096, D1), and else the byte that was there. Premise: memory is canonical (log 7). -/
def Obligations.FetchSeesStores : Prop :=
  ∀ (s : State) (x : Reg), s.memOk = true →
    (∃ t, exec (.stRegs x) s = .next t ∧
      t.fetch.toNat = 256 * (s.byteAfterStore (s.regBlock x) (s.pc.toNat + 2)).toNat +
        (s.byteAfterStore (s.regBlock x) (s.pc.toNat + 3)).toNat) ∧
    (∃ t, exec (.ldB x) s = .next t ∧
      t.fetch.toNat = 256 * (s.byteAfterStore (bcdDigits (s.getV x)) (s.pc.toNat + 2)).toNat +
        (s.byteAfterStore (bcdDigits (s.getV x)) (s.pc.toNat + 3)).toNat)

/-! ## Display -/

/-- R150: every pixel 0, dirty set; no register, memory byte or timer changes. -/
def Obligations.ClearScreenResult : Prop :=
  IsWordOf 0x00E0 .cls ∧ ∀ s : State,
    ∃ t, exec .cls s = .next t ∧ (∀ r c, t.fb.pixel r c = false) ∧ t.displayOk = true ∧ t.dirty = true ∧
      t.pc = s.pc + 2 ∧ RegsKept s t [] ∧ MemKept s t ∧ t = { s with fb := t.fb, dirty := t.dirty, pc := t.pc }

/-- Dxyn pixel by pixel (41_display.md; D13, D14): every on-screen 1 bit of the sprite flips its pixel and no other pixel
changes; VF is 1 exactly if some such pixel was 1; dirty is set. Premise: the framebuffer has its shape, which every step
keeps. -/
def Obligations.DrawSpriteResult : Prop :=
  ∀ (s : State) (x y : Reg) (n : Nat), s.displayOk = true →
    ∃ t, exec (.drw x y n) s = .next t ∧
      (∀ r c, t.fb.pixel r c = (s.fb.pixel r c ^^ s.spriteLit x y n r c)) ∧ t.displayOk = true ∧
      ((∃ r c, s.spriteLit x y n r c = true ∧ s.fb.pixel r c = true) → t.getV regF = 1) ∧
      ((¬ ∃ r c, s.spriteLit x y n r c = true ∧ s.fb.pixel r c = true) → t.getV regF = 0) ∧
      t.dirty = true ∧ t.pc = s.pc + 2 ∧ RegsKept s t [regF] ∧ MemKept s t ∧
      t = { s with fb := t.fb, dirty := t.dirty, v := t.v, pc := t.pc }

/-- L1-4: drawing the same sprite twice at the same place restores the framebuffer; the second draw reports a collision
exactly if some on-screen sprite bit fell on a pixel that was 0, so on a clear region exactly if the sprite has an
on-screen 1 bit, and there the first reports none. Coordinates are not in VF, which a draw writes. -/
def Obligations.DrawTwiceRestores : Prop :=
  ∀ (s t u : State) (x y : Reg) (n : Nat), s.displayOk = true → x ≠ regF → y ≠ regF →
    exec (.drw x y n) s = .next t → exec (.drw x y n) t = .next u →
    u.fb = s.fb ∧
    (u.getV regF = 1 ↔ ∃ r c, s.spriteLit x y n r c = true ∧ s.fb.pixel r c = false) ∧
    ((∀ r c, s.spriteLit x y n r c = true → s.fb.pixel r c = false) →
      t.getV regF = 0 ∧ (u.getV regF = 1 ↔ ∃ r c, s.spriteLit x y n r c = true))

/-! ## Keys and timers -/

/-- Ex9E and ExA1 (45_keys_timers.md; D17): skip if V[x] is the code of a pressed key, or if it is not; a byte from 16
up is no key's code. Only PC changes. -/
def Obligations.KeySkips : Prop :=
  ∀ (s : State) (x : Reg),
    (∃ t, exec (.skp x) s = .next t ∧ OnlyRegs s t [] ∧
      ((∃ k : Key, k.val = (s.getV x).toNat ∧ s.keys[k] = true) → t.pc = s.pc + 4) ∧
      ((¬ ∃ k : Key, k.val = (s.getV x).toNat ∧ s.keys[k] = true) → t.pc = s.pc + 2)) ∧
    (∃ t, exec (.sknp x) s = .next t ∧ OnlyRegs s t [] ∧
      ((∃ k : Key, k.val = (s.getV x).toNat ∧ s.keys[k] = true) → t.pc = s.pc + 2) ∧
      ((¬ ∃ k : Key, k.val = (s.getV x).toNat ∧ s.keys[k] = true) → t.pc = s.pc + 4))

/-- R272, R274, R275: reading DT, which this tick's pass has already counted down; setting DT and ST, which the next
tick's pass counts down first; after Fx18 sound is active exactly if V[x] is not 0, and the next pass has a sound hook
exactly if it does not bring ST to 0. -/
def Obligations.TimerTransfers : Prop :=
  ∀ (s : State) (x : Reg),
    (IsWordOf (0xF007 + 256 * x.val) (.ldVxDt x) ∧
      (∃ t, exec (.ldVxDt x) s = .next t ∧ t.getV x = s.dt ∧ t.pc = s.pc + 2 ∧ OnlyRegs s t [x]) ∧
      ∃ u, exec (.ldVxDt x) s.timerPass = .next u ∧ (u.getV x).toNat = s.dt.toNat - 1) ∧
    (IsWordOf (0xF015 + 256 * x.val) (.ldDtVx x) ∧
      ∃ t, exec (.ldDtVx x) s = .next t ∧ t.dt = s.getV x ∧ t.pc = s.pc + 2 ∧ RegsKept s t [] ∧ MemKept s t ∧
        t = { s with dt := t.dt, pc := t.pc } ∧ t.timerPass.dt.toNat = (s.getV x).toNat - 1) ∧
    (IsWordOf (0xF018 + 256 * x.val) (.ldStVx x) ∧
      ∃ t, exec (.ldStVx x) s = .next t ∧ t.st = s.getV x ∧ t.pc = s.pc + 2 ∧ RegsKept s t [] ∧ MemKept s t ∧
        t = { s with st := t.st, pc := t.pc } ∧ t.timerPass.st.toNat = (s.getV x).toNat - 1 ∧
        (Timer.sound ∈ t.timerHooks ↔ 2 ≤ (s.getV x).toNat) ∧
        (s.loaded = true → (t.isSoundActive = true ↔ (s.getV x).toNat ≠ 0)))

/-- Fx0A (45_keys_timers.md; D7): with no key pressed since it blocked it sets blocked and holds PC, whatever keys are
held; with one recorded it writes the code, clears the block state and advances. -/
def Obligations.KeyWaitInstruction : Prop :=
  ∀ (s : State) (x : Reg),
    (s.pendingUnblock = false →
      ∃ t, exec (.ldVxK x) s = .next t ∧ t.blocked = true ∧ t.pc = s.pc ∧ RegsKept s t [] ∧ MemKept s t ∧
        t = { s with blocked := t.blocked }) ∧
    (∀ k : Key, s.pendingUnblock = true → s.lastKey = some k →
      ∃ t, exec (.ldVxK x) s = .next t ∧ (t.getV x).toNat = k.val ∧ t.pendingUnblock = false ∧ t.lastKey = none ∧
        t.pc = s.pc + 2 ∧ RegsKept s t [x] ∧ MemKept s t ∧
        t = { s with v := t.v, pc := t.pc, pendingUnblock := t.pendingUnblock, lastKey := t.lastKey })

/-- While Fx0A waits and no keyDown or load comes (45_keys_timers.md, 60_exceptions.md section 8, 70 section 3; L1-6), any
number of ticks holds PC and every register; only the timers run down, and key releases and clearDirty still land. -/
def Obligations.KeyWaitHolds : Prop :=
  ∀ (k : Nat) (s : State), s.loaded = true → s.fault = none → s.blocked = true →
    (∀ batch ∈ s.env.inputs, ∀ a ∈ batch, a.endsWait = false) →
    ∃ t, Host.Core.run Sys2Proof.core k s = .next t ∧ t.blocked = true ∧ t.pc = s.pc ∧
      t.dt.toNat = s.dt.toNat - k ∧ t.st.toNat = s.st.toNat - k ∧
      t = { s with dt := t.dt, st := t.st, keys := t.keys, dirty := t.dirty, env := t.env }

/-- A keyDown before the next tick resolves a waiting Fx0A in that tick (45_keys_timers.md timeline, 70 section 3; D6,
D7): V[x] receives the FIRST code pressed, whatever actions that do not end the wait come before it (releases,
clearDirty, reads, a rejected load) and whatever key events follow, and PC advances. -/
def Obligations.KeyPressResolvesWait : Prop :=
  ∀ (s : State) (x : Reg) (c : Key) (pre more : List HostAction) (rest : List (List HostAction)),
    s.loaded = true → s.fault = none → s.blocked = true → decodeWord s.fetch = .instr (.ldVxK x) →
    s.env.inputs = (pre ++ .keyDown c :: more) :: rest → (∀ a ∈ pre, a.endsWait = false) →
    (∀ a ∈ more, a.isGoodLoad = false) →
    ∃ t, step s = .next t ∧ (t.getV x).toNat = c.val ∧ t.pc = s.pc + 2 ∧ t.blocked = false ∧
      t.pendingUnblock = false ∧ t.lastKey = none ∧ t.fault = none ∧ t.dt.toNat = s.dt.toNat - 1 ∧
      RegsKept s t [x] ∧ MemKept s t

/-- The timer pass and its hooks (40_cycle.md section 1, 60_exceptions.md section 4; D20): each timer down by one above 0,
nothing else; a hook for a timer exactly if its value before was at least 2; and where the pass runs in a tick. -/
def Obligations.TimerPassAndHooks : Prop :=
  ∀ s : State,
    s.timerPass.dt.toNat = s.dt.toNat - 1 ∧ s.timerPass.st.toNat = s.st.toNat - 1 ∧
    s.timerPass = { s with dt := s.timerPass.dt, st := s.timerPass.st } ∧
    s.timerHooks = (if 2 ≤ s.dt.toNat then [Timer.delay] else []) ++ (if 2 ≤ s.st.toNat then [Timer.sound] else []) ∧
    (s.loaded = true → s.fault = none → s.tickHooks = s.timerHooks ∧
      tick s = if s.blocked then .next s.timerPass else interpret s.timerPass)

/-- Timer decay (70 section 3; L1-7): over a step that runs no Fx15 (Fx18) and no load, DT (ST) goes down by exactly one
above 0, in a loaded machine without a fault. -/
def Obligations.TimersDecay : Prop :=
  ∀ s t : State, s.deliver.loaded = true → s.deliver.fault = none →
    (∀ a ∈ s.nextBatch, a.isGoodLoad = false) → step s = .next t →
    ((s.deliver.blocked = true ∨ ∀ x, decodeWord s.deliver.fetch ≠ .instr (.ldDtVx x)) → t.dt.toNat = s.dt.toNat - 1) ∧
    ((s.deliver.blocked = true ∨ ∀ x, decodeWord s.deliver.fetch ≠ .instr (.ldStVx x)) → t.st.toNat = s.st.toNat - 1)

/-! ## The step -/

/-- A step is the host's batch, then the timer pass, then exec of the instruction that the bytes at PC decode to
(40_cycle.md sections 1 and 2; log 4 for the batch). -/
def Obligations.StepRunsDecodedInstruction : Prop :=
  ∀ (s : State) (i : Instr), s.deliver.running = true → decodeWord s.deliver.fetch = .instr i →
    step s = exec i s.deliver.timerPass

/-- A word that matches no row latches UnknownOpcode with that word and its PC, after the timer pass, and nothing else
changes (60_exceptions.md section 1; D18, D23). -/
def Obligations.UnknownWordLatches : Prop :=
  ∀ (s : State), s.deliver.running = true → opcodeMap.filter (fun r => r.hits s.deliver.fetch) = [] →
    step s = .next { s.deliver.timerPass with fault := some ⟨.unknownOpcode, s.deliver.fetch, s.deliver.pc⟩ }

/-- Blocked: the tick is the timer pass and nothing else, with no fetch, and it returns Ok (40_cycle.md section 1). -/
def Obligations.BlockedTickOnlyCountsDown : Prop :=
  ∀ s : State, s.deliver.loaded = true → s.deliver.fault = none → s.deliver.blocked = true →
    ∃ t, step s = .next t ∧ t.dt.toNat = s.deliver.dt.toNat - 1 ∧ t.st.toNat = s.deliver.st.toNat - 1 ∧
      t.pc = s.deliver.pc ∧ RegsKept s.deliver t [] ∧ MemKept s.deliver t ∧ t.tickResult = .ok ∧
      t = { s.deliver with dt := t.dt, st := t.st }

/-- Faults are precise (60_exceptions.md section 1): if the tick of a running machine ends with a fault latched, the
record is that of the instruction at PC, its condition held, and the latch and the timer pass are all that changed. -/
def Obligations.FaultsArePrecise : Prop :=
  ∀ (s t : State) (r : FaultRecord), s.deliver.running = true → step s = .next t → t.fault = some r →
    r.pc = s.deliver.pc ∧ r.opcode = s.deliver.fetch ∧ s.deliver.raises r.kind = true ∧
    t.tickResult = .fault r ∧ t = { s.deliver.timerPass with fault := some r }

/-- The latch is sticky (60_exceptions.md section 1; D18): with no successful load before the next tick, a latched fault
stays, the tick changes nothing and runs no timer pass, and it returns the same fault (Ok, if the machine were Unloaded
with a fault latched, which the invariant rules out); a successful load clears it. -/
def Obligations.FaultStaysUntilLoad : Prop :=
  ∀ (s : State) (r : FaultRecord), s.fault = some r →
    ((∀ a ∈ s.nextBatch, a.isGoodLoad = false) →
      ∃ t, step s = .next t ∧ t.fault = some r ∧ (s.loaded = true → t.tickResult = .fault r) ∧
        (s.loaded = false → t.tickResult = .ok) ∧ t.dt = s.dt ∧ t.st = s.st ∧ t.pc = s.pc ∧
        RegsKept s t [] ∧ MemKept s t ∧
        t = { s with keys := t.keys, dirty := t.dirty, blocked := t.blocked, pendingUnblock := t.pendingUnblock,
                     lastKey := t.lastKey, env := t.env }) ∧
    (∀ rom : List Byte, rom.length ≤ 3584 → (s.act (.load rom)).fault = none)

/-- A well-behaved program never faults, and no other keeps from it (70 section 2): the tick of a running machine ends
without a fault, and returns Ok, exactly if the word at PC is legal, is no return with an empty stack and no call with a
full one. -/
def Obligations.SafeIffWellBehaved : Prop :=
  ∀ s : State, s.deliver.running = true →
    ∃ t, step s = .next t ∧ (t.safe = true ↔ s.deliver.wellBehaved) ∧ (t.tickResult = .ok ↔ s.deliver.wellBehaved)

/-- An Unloaded machine ignores ticks, which return Ok, and every host action but a successful load; its frame is blank
and of the machine's size, and it makes no sound (70 section 1; D25). -/
def Obligations.UnloadedDoesNothing : Prop :=
  ∀ s : State, s.loaded = false → (∀ a ∈ s.nextBatch, a.isGoodLoad = false) →
    (∃ t, step s = .next t ∧ t = { s with env := { s.env with inputs := s.env.inputs.tail } } ∧
      t.tickResult = .ok) ∧
    s.tickHooks = [] ∧ s.isSoundActive = false ∧ s.frame.2 = false ∧
    Framebuffer.wf s.cfg.fbH s.cfg.fbW s.frame.1 = true ∧ ∀ r c, s.frame.1.pixel r c = false

/-- Every instruction executes at any time, with no privilege, memory, alignment or arithmetic fault, and every step of
the machine answers a next state (60_exceptions.md sections 1 and 3; D19; log 3 for a fault as a next state). -/
def Obligations.NothingStops : Prop :=
  (∀ (i : Instr) (s : State), ∃ t, exec i s = .next t) ∧ ∀ s : State, ∃ t, step s = .next t

/-! ## The host's actions -/

/-- keyDown and keyUp (60_exceptions.md section 5; D21): a press sets the key, and while Fx0A waits it is recorded and
ends the wait; a release clears the key and never touches the block state. -/
def Obligations.KeyEvents : Prop :=
  ∀ (s : State) (c : Key), s.loaded = true →
    (s.act (.keyDown c)).keys[c] = true ∧ (s.act (.keyUp c)).keys[c] = false ∧
    (∀ k : Key, k ≠ c → (s.act (.keyDown c)).keys[k] = s.keys[k] ∧ (s.act (.keyUp c)).keys[k] = s.keys[k]) ∧
    (s.blocked = true → s.act (.keyDown c) = { s with keys := (s.act (.keyDown c)).keys, blocked := false,
                                                      pendingUnblock := true, lastKey := some c }) ∧
    (s.blocked = false → s.act (.keyDown c) = { s with keys := (s.act (.keyDown c)).keys }) ∧
    s.act (.keyUp c) = { s with keys := (s.act (.keyUp c)).keys }

/-- R310, R315: `frame()` answers the pixels and the dirty flag, `isSoundActive()` whether ST is not 0; neither changes
the state. -/
def Obligations.FrameAndSoundAreReads : Prop :=
  ∀ s : State, s.loaded = true →
    s.act .frame = s ∧ s.reply .frame = .frame s.fb s.dirty ∧
    s.act .isSoundActive = s ∧ ∃ b, s.reply .isSoundActive = .soundActive b ∧ (b = true ↔ s.st.toNat ≠ 0)

/-- A host action other than a successful load touches the keys, the block state and the dirty flag only: no register, PC,
stack, memory byte, timer, pixel or fault (60_exceptions.md section 2; D19, D22), and clearDirty the dirty flag alone. -/
def Obligations.HostActionsTouchInputsOnly : Prop :=
  ∀ (s : State) (a : HostAction), a.isGoodLoad = false →
    (s.act a = { s with keys := (s.act a).keys, dirty := (s.act a).dirty, blocked := (s.act a).blocked,
                        pendingUnblock := (s.act a).pendingUnblock, lastKey := (s.act a).lastKey }) ∧
    RegsKept s (s.act a) [] ∧ MemKept s (s.act a) ∧
    (s.loaded = true → s.act .clearDirty = { s with dirty := false })

/-- A successful load (70 section 1; D16, D24): whatever the old machine was, the new one is the reset record: the ROM at
0x200, the font at 0x050, every other byte 0, PC 0x200, a framebuffer of the machine's size, all else clear. -/
def Obligations.LoadInstallsResetRecord : Prop :=
  ∀ (s : State) (rom : List Byte), rom.length ≤ 3584 →
    ∃ t, s.act (.load rom) = t ∧ s.reply (.load rom) = .load .ok ∧ t.loaded = true ∧ t.pc.toNat = 0x200 ∧
      (∀ k, k < rom.length → t.memRead (0x200 + k) = rom.getD k 0) ∧
      (∀ k, k < 80 → t.memRead (0x050 + k) = s.cfg.font.getD k 0) ∧
      (∀ a, a < 4096 → ¬ (0x050 ≤ a ∧ a < 0x0A0) → ¬ (0x200 ≤ a ∧ a < 0x200 + rom.length) → t.memRead a = 0) ∧
      (∀ r, t.getV r = 0) ∧ t.i = 0 ∧ t.stack = [] ∧ t.dt = 0 ∧ t.st = 0 ∧ (∀ k : Key, t.keys[k] = false) ∧
      t.displayOk = true ∧ (∀ r c, t.fb.pixel r c = false) ∧ t.dirty = false ∧ t.blocked = false ∧ t.pendingUnblock = false ∧
      t.lastKey = none ∧ t.fault = none ∧ t.cfg = s.cfg ∧ t.env = s.env

/-- R352: a ROM of more than 3584 bytes is InvalidRom and changes nothing, on a loaded machine and on an unloaded one. -/
def Obligations.OversizeLoadHasNoEffect : Prop :=
  ∀ (s : State) (rom : List Byte), 3584 < rom.length → s.act (.load rom) = s ∧ s.reply (.load rom) = .load .invalidRom

/-- The state after reset (10_state.md section 12; all values but PC are decisions D16 and D24 of the spec; that it is a
load of no program bytes is log 1; the font's bytes are log 8): PC 0x200, the default font in place byte by byte,
everything else clear. -/
def Obligations.ResetValues : Prop :=
  State.reset.loaded = true ∧ State.reset.pc = 0x200 ∧ (∀ r, State.reset.getV r = 0) ∧ State.reset.i = 0 ∧
  State.reset.stack = [] ∧ State.reset.dt = 0 ∧ State.reset.st = 0 ∧ (∀ k : Key, State.reset.keys[k] = false) ∧
  (∀ r c, State.reset.fb.pixel r c = false) ∧ State.reset.displayOk = true ∧ State.reset.dirty = false ∧
  State.reset.blocked = false ∧ State.reset.pendingUnblock = false ∧ State.reset.lastKey = none ∧
  State.reset.fault = none ∧ State.reset.cfg.stackLimit = some 16 ∧ State.reset.cfg.borrow = .source ∧
  State.reset.cfg.fbH = 32 ∧ State.reset.cfg.fbW = 64 ∧
  (∀ a, a < 4096 → State.reset.memRead a =
    if 0x050 ≤ a ∧ a < 0x0A0 then fontTable.getD (a - 0x050) 0 else 0) ∧
  fontTable.length = 80 ∧ State.reset.cfg.font = fontTable ∧
  ∀ env : Env, (State.powerOn Config.default env).act (.load []) = { State.reset with env := env }

/-! ## Whole-machine rules -/

/-- No instruction writes a V register but its destinations and, where its rule says so, VF (10_state.md section 2; D11). -/
def Obligations.OnlyDestinationRegistersChange : Prop :=
  ∀ (i : Instr) (s t : State), exec i s = .next t → RegsKept s t (instrWrites i)

/-- No instruction but Fx33 and Fx55 changes memory, and none but 00E0 and Dxyn changes the framebuffer or the dirty flag
(20_memory.md section 1, 41_display.md). -/
def Obligations.OnlyStoresAndDrawsReachMemoryAndScreen : Prop :=
  ∀ (i : Instr) (s t : State), exec i s = .next t →
    (((∀ x, i ≠ .ldB x) ∧ ∀ x, i ≠ .stRegs x) → t.mem = s.mem ∧ MemKept s t) ∧
    ((i ≠ .cls ∧ ∀ x y n, i ≠ .drw x y n) → t.fb = s.fb ∧ t.dirty = s.dirty)

/-- Each of I, the stack, DT, ST, the block state, the random source and the fault latch has its writers among the
instructions and no others; no instruction writes the keys, the loaded flag, the parameters or the schedule
(10_state.md). -/
def Obligations.EachStateHasItsWriters : Prop :=
  ∀ (i : Instr) (s t : State), exec i s = .next t →
    (((∀ n, i ≠ .ldI n) ∧ (∀ x, i ≠ .addI x) ∧ ∀ x, i ≠ .ldF x) → t.i = s.i) ∧
    ((i ≠ .ret ∧ ∀ n, i ≠ .call n) → t.stack = s.stack ∧ t.fault = s.fault) ∧
    ((∀ x, i ≠ .ldDtVx x) → t.dt = s.dt) ∧ ((∀ x, i ≠ .ldStVx x) → t.st = s.st) ∧
    ((∀ x, i ≠ .ldVxK x) → t.blocked = s.blocked ∧ t.pendingUnblock = s.pendingUnblock ∧ t.lastKey = s.lastKey) ∧
    ((∀ x nn, i ≠ .rnd x nn) → t.env = s.env) ∧
    t.keys = s.keys ∧ t.loaded = s.loaded ∧ t.cfg = s.cfg ∧ t.env.inputs = s.env.inputs

/-- R130: every write to I is in 0..0xFFF, and no arithmetic raises a fault (a V register is a byte and PC a 16-bit value
by their types): only 00EE and 2nnn can change the latch. -/
def Obligations.WritesStayInRange : Prop :=
  ∀ (i : Instr) (s t : State), i.wf = true → exec i s = .next t →
    (t.i ≠ s.i → t.i.toNat ≤ 0xFFF) ∧ (∀ r, (t.getV r).toNat ≤ 255) ∧ t.pc.toNat < 65536 ∧
    ((i ≠ .ret ∧ ∀ n, i ≠ .call n) → t.fault = s.fault)

/-- The PC update classes (40_cycle.md section 3; D2, D8): NEXT adds 2, SKIP adds 2 or 4, GOTO goes to its target, HOLD
keeps PC or, on completion, adds 2; where a call or a return faults, PC stays. -/
def Obligations.PcUpdateClasses : Prop :=
  ∀ (i : Instr) (s t : State), exec i s = .next t →
    (pcClassOf i = .next → t.pc = s.pc + 2) ∧
    (pcClassOf i = .skip → t.pc = s.pc + 2 ∨ t.pc = s.pc + 4) ∧
    (pcClassOf i = .hold → (t.blocked = true ∧ t.pc = s.pc) ∨ (s.pendingUnblock = true ∧ t.pc = s.pc + 2)) ∧
    (∀ n, i = .jp n → t.pc = n) ∧ (∀ n, i = .jpV0 n → t.pc = n + zext16 (s.getV 0)) ∧
    (∀ n, i = .call n → t.pc = n ∨ (t.pc = s.pc ∧ s.cfg.stackLimit = some s.stack.length)) ∧
    (i = .ret → (∃ a, s.stack.getLast? = some a ∧ t.pc = a + 2) ∨ (t.pc = s.pc ∧ s.stack = []))

/-- Only Ex9E and ExA1 read the key states (10_state.md section 7): any other instruction does the same whatever keys are
held. -/
def Obligations.KeysReachOnlyKeySkips : Prop :=
  ∀ (i : Instr) (s t : State) (ks : Vector Bool 16), (∀ x, i ≠ .skp x) → (∀ x, i ≠ .sknp x) →
    exec i s = .next t → exec i { s with keys := ks } = .next { t with keys := ks }

/-- No instruction reads ST or the dirty flag (10_state.md sections 6 and 8): the rest of the result is the same whatever
they hold. -/
def Obligations.SoundTimerAndDirtyUnread : Prop :=
  ∀ (i : Instr) (s t : State) (b : Byte) (d : Bool), exec i s = .next t →
    ∃ b' d', exec i { s with st := b, dirty := d } = .next { t with st := b', dirty := d' }

/-- Exactly one random draw for each executed Cxnn and none otherwise (43_alu.md; D12), over a whole step; a load does not
reset the source (log 5). -/
def Obligations.OneDrawPerRandom : Prop :=
  ∀ s t : State, step s = .next t →
    ((s.deliver.running = true ∧ ∃ x nn, decodeWord s.deliver.fetch = .instr (.rnd x nn)) →
      t.env.draws = s.env.draws + 1) ∧
    (¬ (s.deliver.running = true ∧ ∃ x nn, decodeWord s.deliver.fetch = .instr (.rnd x nn)) →
      t.env.draws = s.env.draws)

/-- The parameters never change, a loaded machine stays loaded, and each step takes one batch off the schedule
(00_scope.md section 3, 10_state.md section 1; logs 4 and 6). -/
def Obligations.ParametersAndSchedule : Prop :=
  ∀ s t : State, step s = .next t →
    t.cfg = s.cfg ∧ (s.loaded = true → t.loaded = true) ∧ t.env.inputs = s.env.inputs.tail

/-! ## The invariant -/

/-- Every step keeps the invariant of the machine, from every state that has it and under any host actions: memory
canonical (log 7), I 12-bit, the stack within its limit, the framebuffer's shape, the block state's invariants, a latched
fault explained by the state it froze, an unloaded machine empty. -/
def Obligations.StepKeepsInvariant : Prop :=
  ∀ s t : State, s.inv = true → step s = .next t → t.inv = true

/-- The invariant holds after reset, and at power-on with any parameters. -/
def Obligations.ResetHasInvariant : Prop :=
  State.reset.inv = true ∧ ∀ (cfg : Config) (env : Env), (State.powerOn cfg env).inv = true
end

