-- ==== Sys2Proof/Laws/Decode.lean ====
section
/-! SUPPORT. Decoding and encoding as arithmetic: the masks of R94, the fields of encoded words, byte joining. -/

namespace Sys2Proof

/-! ## The four masks of R94 as arithmetic on the word's value -/

theorem mask_F000 (w : Word) : (w &&& 0xF000#16).toNat = w.toNat / 4096 * 4096 := by
  have h : w &&& 0xF000#16 = (w >>> 12) <<< 12 := by
    ext i hi
    interval_cases i <;> simp
  have := w.isLt
  rw [h, BitVec.toNat_shiftLeft, BitVec.toNat_ushiftRight, Nat.shiftLeft_eq, Nat.shiftRight_eq_div_pow]
  omega

theorem mask_000F (w : Word) : (w &&& 0x000F#16).toNat = w.toNat % 16 := by
  rw [BitVec.toNat_and]
  exact Nat.and_two_pow_sub_one_eq_mod w.toNat 4

theorem mask_00FF (w : Word) : (w &&& 0x00FF#16).toNat = w.toNat % 256 := by
  rw [BitVec.toNat_and]
  exact Nat.and_two_pow_sub_one_eq_mod w.toNat 8

theorem mask_F00F (w : Word) : (w &&& 0xF00F#16).toNat = w.toNat / 4096 * 4096 + w.toNat % 16 := by
  have h : w &&& 0xF00F#16 = (w &&& 0xF000#16) ||| (w &&& 0x000F#16) := by
    rw [← BitVec.and_or_distrib_left]; rfl
  have hlt : w.toNat % 16 < 2 ^ 12 := by omega
  rw [h, BitVec.toNat_or, mask_F000, mask_000F, Nat.mul_comm,
    show 4096 * (w.toNat / 4096) = 2 ^ 12 * (w.toNat / 4096) by rfl, Nat.two_pow_add_eq_or_of_lt hlt]

theorem mask_F0FF (w : Word) : (w &&& 0xF0FF#16).toNat = w.toNat / 4096 * 4096 + w.toNat % 256 := by
  have h : w &&& 0xF0FF#16 = (w &&& 0xF000#16) ||| (w &&& 0x00FF#16) := by
    rw [← BitVec.and_or_distrib_left]; rfl
  have hlt : w.toNat % 256 < 2 ^ 12 := by omega
  rw [h, BitVec.toNat_or, mask_F000, mask_00FF, Nat.mul_comm,
    show 4096 * (w.toNat / 4096) = 2 ^ 12 * (w.toNat / 4096) by rfl, Nat.two_pow_add_eq_or_of_lt hlt]

theorem mask_FFFF (w : Word) : (w &&& 0xFFFF#16).toNat = w.toNat := by
  rw [BitVec.toNat_and]
  exact (Nat.and_two_pow_sub_one_eq_mod w.toNat 16).trans (Nat.mod_eq_of_lt w.isLt)

/-! ## When a word belongs to a row, by the row's mask -/

theorem hits_F000 (nm : String) (p w : Word) :
    (OpcodeRow.mk nm p 0xF000).hits w = decide (w.toNat / 4096 * 4096 = p.toNat) := by
  simp only [OpcodeRow.hits, BEq.beq]
  exact decide_eq_decide.mpr (by rw [← mask_F000, BitVec.toNat_inj]; exact Iff.rfl)

theorem hits_F00F (nm : String) (p w : Word) :
    (OpcodeRow.mk nm p 0xF00F).hits w = decide (w.toNat / 4096 * 4096 + w.toNat % 16 = p.toNat) := by
  simp only [OpcodeRow.hits, BEq.beq]
  exact decide_eq_decide.mpr (by rw [← mask_F00F, BitVec.toNat_inj]; exact Iff.rfl)

theorem hits_F0FF (nm : String) (p w : Word) :
    (OpcodeRow.mk nm p 0xF0FF).hits w = decide (w.toNat / 4096 * 4096 + w.toNat % 256 = p.toNat) := by
  simp only [OpcodeRow.hits, BEq.beq]
  exact decide_eq_decide.mpr (by rw [← mask_F0FF, BitVec.toNat_inj]; exact Iff.rfl)

theorem hits_FFFF (nm : String) (p w : Word) :
    (OpcodeRow.mk nm p 0xFFFF).hits w = decide (w.toNat = p.toNat) := by
  simp only [OpcodeRow.hits, BEq.beq]
  exact decide_eq_decide.mpr (by rw [← mask_FFFF, BitVec.toNat_inj]; exact Iff.rfl)

/-! ## The value of an encoded word, format by format -/

theorem encodeNNN_toNat {m : Nat} {nnn : Word} (hn : nnn.toNat < 4096) (hm : m ≤ 0xF000) :
    (encodeNNN m nnn).toNat = m + nnn.toNat := by
  rw [encodeNNN, BitVec.toNat_ofNat, Nat.mod_eq_of_lt (by omega)]

theorem encodeXNN_toNat {m : Nat} (x : Reg) (nn : Byte) (hm : m ≤ 0xF000) :
    (encodeXNN m x nn).toNat = m + 256 * x.val + nn.toNat := by
  have := x.isLt
  have := nn.isLt
  rw [encodeXNN, BitVec.toNat_ofNat, Nat.mod_eq_of_lt (by omega)]

theorem encodeXY_toNat {m : Nat} (x y : Reg) (hm : m ≤ 0xF00F) :
    (encodeXY m x y).toNat = m + 256 * x.val + 16 * y.val := by
  have := x.isLt
  have := y.isLt
  rw [encodeXY, BitVec.toNat_ofNat, Nat.mod_eq_of_lt (by omega)]

theorem encodeXYN_toNat {m n : Nat} (x y : Reg) (hn : n < 16) (hm : m ≤ 0xF000) :
    (encodeXYN m x y n).toNat = m + 256 * x.val + 16 * y.val + n := by
  have := x.isLt
  have := y.isLt
  rw [encodeXYN, BitVec.toNat_ofNat, Nat.mod_eq_of_lt (by omega)]

theorem encodeX_toNat {m : Nat} (x : Reg) (hm : m ≤ 0xF0FF) : (encodeX m x).toNat = m + 256 * x.val := by
  have := x.isLt
  rw [encodeX, BitVec.toNat_ofNat, Nat.mod_eq_of_lt (by omega)]

/-! ## The value of a word's fields -/

theorem opX_val (w : Word) : (opX w).val = w.toNat / 256 % 16 := rfl

theorem opY_val (w : Word) : (opY w).val = w.toNat / 16 % 16 := rfl

theorem opNN_toNat (w : Word) : (opNN w).toNat = w.toNat % 256 := by simp [opNN]

theorem opNNN_toNat (w : Word) : (opNNN w).toNat = w.toNat % 4096 := by
  have := w.isLt
  rw [opNNN, BitVec.toNat_ofNat, Nat.mod_eq_of_lt (by omega)]

/-! ## Bytes of a word -/

theorem joinBytes_toNat (hi lo : Byte) : (joinBytes hi lo).toNat = 256 * hi.toNat + lo.toNat := by
  have := lo.isLt
  rw [joinBytes, BitVec.toNat_append, ← Nat.shiftLeft_add_eq_or_of_lt this, Nat.shiftLeft_eq]
  omega

theorem joinBytes_highByte_lowByte (w : Word) : joinBytes (highByte w) (lowByte w) = w := by
  have := w.isLt
  apply BitVec.eq_of_toNat_eq
  rw [joinBytes_toNat, highByte, lowByte, BitVec.toNat_ofNat, BitVec.toNat_ofNat]
  omega

/-! ## The decoder's answers -/

/-- A rejected word is named in the rejection (R95). -/
theorem decodeWord_unknown {w op : Word} (h : decodeWord w = .unknownOpcode op) : op = w := by
  unfold decodeWord decode0 decode8 decodeE decodeF at h
  split at h <;> first | cases h; done | (cases h; rfl) | skip
  all_goals first
    | (split_ifs at h <;> first | cases h; done | (cases h; rfl))
    | (split at h <;> first | cases h; done | (cases h; rfl))

end Sys2Proof
end

