-- ==== Sys2Proof/Laws/State.lean ====
section
/-! SUPPORT. One lemma per field per shared update of State, so that later proofs never unfold a record update. -/

namespace Sys2Proof.Machine

/-! ### setV -/

@[simp] theorem State.setV_loaded (s : State) (x : Reg) (b : Byte) : (s.setV x b).loaded = s.loaded := rfl
@[simp] theorem State.setV_mem (s : State) (x : Reg) (b : Byte) : (s.setV x b).mem = s.mem := rfl
@[simp] theorem State.setV_v (s : State) (x : Reg) (b : Byte) : (s.setV x b).v = s.v.set x b := rfl
@[simp] theorem State.setV_i (s : State) (x : Reg) (b : Byte) : (s.setV x b).i = s.i := rfl
@[simp] theorem State.setV_pc (s : State) (x : Reg) (b : Byte) : (s.setV x b).pc = s.pc := rfl
@[simp] theorem State.setV_stack (s : State) (x : Reg) (b : Byte) : (s.setV x b).stack = s.stack := rfl
@[simp] theorem State.setV_dt (s : State) (x : Reg) (b : Byte) : (s.setV x b).dt = s.dt := rfl
@[simp] theorem State.setV_st (s : State) (x : Reg) (b : Byte) : (s.setV x b).st = s.st := rfl
@[simp] theorem State.setV_keys (s : State) (x : Reg) (b : Byte) : (s.setV x b).keys = s.keys := rfl
@[simp] theorem State.setV_fb (s : State) (x : Reg) (b : Byte) : (s.setV x b).fb = s.fb := rfl
@[simp] theorem State.setV_dirty (s : State) (x : Reg) (b : Byte) : (s.setV x b).dirty = s.dirty := rfl
@[simp] theorem State.setV_blocked (s : State) (x : Reg) (b : Byte) : (s.setV x b).blocked = s.blocked := rfl
@[simp] theorem State.setV_pendingUnblock (s : State) (x : Reg) (b : Byte) : (s.setV x b).pendingUnblock = s.pendingUnblock := rfl
@[simp] theorem State.setV_lastKey (s : State) (x : Reg) (b : Byte) : (s.setV x b).lastKey = s.lastKey := rfl
@[simp] theorem State.setV_fault (s : State) (x : Reg) (b : Byte) : (s.setV x b).fault = s.fault := rfl
@[simp] theorem State.setV_cfg (s : State) (x : Reg) (b : Byte) : (s.setV x b).cfg = s.cfg := rfl
@[simp] theorem State.setV_env (s : State) (x : Reg) (b : Byte) : (s.setV x b).env = s.env := rfl

/-! ### setVFlag -/

@[simp] theorem State.setVFlag_loaded (s : State) (x : Reg) (r f : Byte) : (s.setVFlag x r f).loaded = s.loaded := rfl
@[simp] theorem State.setVFlag_mem (s : State) (x : Reg) (r f : Byte) : (s.setVFlag x r f).mem = s.mem := rfl
@[simp] theorem State.setVFlag_v (s : State) (x : Reg) (r f : Byte) : (s.setVFlag x r f).v = (s.v.set x r).set regF f := rfl
@[simp] theorem State.setVFlag_i (s : State) (x : Reg) (r f : Byte) : (s.setVFlag x r f).i = s.i := rfl
@[simp] theorem State.setVFlag_pc (s : State) (x : Reg) (r f : Byte) : (s.setVFlag x r f).pc = s.pc := rfl
@[simp] theorem State.setVFlag_stack (s : State) (x : Reg) (r f : Byte) : (s.setVFlag x r f).stack = s.stack := rfl
@[simp] theorem State.setVFlag_dt (s : State) (x : Reg) (r f : Byte) : (s.setVFlag x r f).dt = s.dt := rfl
@[simp] theorem State.setVFlag_st (s : State) (x : Reg) (r f : Byte) : (s.setVFlag x r f).st = s.st := rfl
@[simp] theorem State.setVFlag_keys (s : State) (x : Reg) (r f : Byte) : (s.setVFlag x r f).keys = s.keys := rfl
@[simp] theorem State.setVFlag_fb (s : State) (x : Reg) (r f : Byte) : (s.setVFlag x r f).fb = s.fb := rfl
@[simp] theorem State.setVFlag_dirty (s : State) (x : Reg) (r f : Byte) : (s.setVFlag x r f).dirty = s.dirty := rfl
@[simp] theorem State.setVFlag_blocked (s : State) (x : Reg) (r f : Byte) : (s.setVFlag x r f).blocked = s.blocked := rfl
@[simp] theorem State.setVFlag_pendingUnblock (s : State) (x : Reg) (r f : Byte) : (s.setVFlag x r f).pendingUnblock = s.pendingUnblock := rfl
@[simp] theorem State.setVFlag_lastKey (s : State) (x : Reg) (r f : Byte) : (s.setVFlag x r f).lastKey = s.lastKey := rfl
@[simp] theorem State.setVFlag_fault (s : State) (x : Reg) (r f : Byte) : (s.setVFlag x r f).fault = s.fault := rfl
@[simp] theorem State.setVFlag_cfg (s : State) (x : Reg) (r f : Byte) : (s.setVFlag x r f).cfg = s.cfg := rfl
@[simp] theorem State.setVFlag_env (s : State) (x : Reg) (r f : Byte) : (s.setVFlag x r f).env = s.env := rfl

/-! ### setI -/

@[simp] theorem State.setI_loaded (s : State) (w : Word) : (s.setI w).loaded = s.loaded := rfl
@[simp] theorem State.setI_mem (s : State) (w : Word) : (s.setI w).mem = s.mem := rfl
@[simp] theorem State.setI_v (s : State) (w : Word) : (s.setI w).v = s.v := rfl
@[simp] theorem State.setI_i (s : State) (w : Word) : (s.setI w).i = w := rfl
@[simp] theorem State.setI_pc (s : State) (w : Word) : (s.setI w).pc = s.pc := rfl
@[simp] theorem State.setI_stack (s : State) (w : Word) : (s.setI w).stack = s.stack := rfl
@[simp] theorem State.setI_dt (s : State) (w : Word) : (s.setI w).dt = s.dt := rfl
@[simp] theorem State.setI_st (s : State) (w : Word) : (s.setI w).st = s.st := rfl
@[simp] theorem State.setI_keys (s : State) (w : Word) : (s.setI w).keys = s.keys := rfl
@[simp] theorem State.setI_fb (s : State) (w : Word) : (s.setI w).fb = s.fb := rfl
@[simp] theorem State.setI_dirty (s : State) (w : Word) : (s.setI w).dirty = s.dirty := rfl
@[simp] theorem State.setI_blocked (s : State) (w : Word) : (s.setI w).blocked = s.blocked := rfl
@[simp] theorem State.setI_pendingUnblock (s : State) (w : Word) : (s.setI w).pendingUnblock = s.pendingUnblock := rfl
@[simp] theorem State.setI_lastKey (s : State) (w : Word) : (s.setI w).lastKey = s.lastKey := rfl
@[simp] theorem State.setI_fault (s : State) (w : Word) : (s.setI w).fault = s.fault := rfl
@[simp] theorem State.setI_cfg (s : State) (w : Word) : (s.setI w).cfg = s.cfg := rfl
@[simp] theorem State.setI_env (s : State) (w : Word) : (s.setI w).env = s.env := rfl

/-! ### goto -/

@[simp] theorem State.goto_loaded (s : State) (w : Word) : (s.goto w).loaded = s.loaded := rfl
@[simp] theorem State.goto_mem (s : State) (w : Word) : (s.goto w).mem = s.mem := rfl
@[simp] theorem State.goto_v (s : State) (w : Word) : (s.goto w).v = s.v := rfl
@[simp] theorem State.goto_i (s : State) (w : Word) : (s.goto w).i = s.i := rfl
@[simp] theorem State.goto_pc (s : State) (w : Word) : (s.goto w).pc = w := rfl
@[simp] theorem State.goto_stack (s : State) (w : Word) : (s.goto w).stack = s.stack := rfl
@[simp] theorem State.goto_dt (s : State) (w : Word) : (s.goto w).dt = s.dt := rfl
@[simp] theorem State.goto_st (s : State) (w : Word) : (s.goto w).st = s.st := rfl
@[simp] theorem State.goto_keys (s : State) (w : Word) : (s.goto w).keys = s.keys := rfl
@[simp] theorem State.goto_fb (s : State) (w : Word) : (s.goto w).fb = s.fb := rfl
@[simp] theorem State.goto_dirty (s : State) (w : Word) : (s.goto w).dirty = s.dirty := rfl
@[simp] theorem State.goto_blocked (s : State) (w : Word) : (s.goto w).blocked = s.blocked := rfl
@[simp] theorem State.goto_pendingUnblock (s : State) (w : Word) : (s.goto w).pendingUnblock = s.pendingUnblock := rfl
@[simp] theorem State.goto_lastKey (s : State) (w : Word) : (s.goto w).lastKey = s.lastKey := rfl
@[simp] theorem State.goto_fault (s : State) (w : Word) : (s.goto w).fault = s.fault := rfl
@[simp] theorem State.goto_cfg (s : State) (w : Word) : (s.goto w).cfg = s.cfg := rfl
@[simp] theorem State.goto_env (s : State) (w : Word) : (s.goto w).env = s.env := rfl

/-! ### nextPc -/

@[simp] theorem State.nextPc_loaded (s : State) : (s.nextPc).loaded = s.loaded := rfl
@[simp] theorem State.nextPc_mem (s : State) : (s.nextPc).mem = s.mem := rfl
@[simp] theorem State.nextPc_v (s : State) : (s.nextPc).v = s.v := rfl
@[simp] theorem State.nextPc_i (s : State) : (s.nextPc).i = s.i := rfl
@[simp] theorem State.nextPc_pc (s : State) : (s.nextPc).pc = s.pc + 2 := rfl
@[simp] theorem State.nextPc_stack (s : State) : (s.nextPc).stack = s.stack := rfl
@[simp] theorem State.nextPc_dt (s : State) : (s.nextPc).dt = s.dt := rfl
@[simp] theorem State.nextPc_st (s : State) : (s.nextPc).st = s.st := rfl
@[simp] theorem State.nextPc_keys (s : State) : (s.nextPc).keys = s.keys := rfl
@[simp] theorem State.nextPc_fb (s : State) : (s.nextPc).fb = s.fb := rfl
@[simp] theorem State.nextPc_dirty (s : State) : (s.nextPc).dirty = s.dirty := rfl
@[simp] theorem State.nextPc_blocked (s : State) : (s.nextPc).blocked = s.blocked := rfl
@[simp] theorem State.nextPc_pendingUnblock (s : State) : (s.nextPc).pendingUnblock = s.pendingUnblock := rfl
@[simp] theorem State.nextPc_lastKey (s : State) : (s.nextPc).lastKey = s.lastKey := rfl
@[simp] theorem State.nextPc_fault (s : State) : (s.nextPc).fault = s.fault := rfl
@[simp] theorem State.nextPc_cfg (s : State) : (s.nextPc).cfg = s.cfg := rfl
@[simp] theorem State.nextPc_env (s : State) : (s.nextPc).env = s.env := rfl

/-! ### skipPc -/

@[simp] theorem State.skipPc_loaded (s : State) (c : Bool) : (s.skipPc c).loaded = s.loaded := rfl
@[simp] theorem State.skipPc_mem (s : State) (c : Bool) : (s.skipPc c).mem = s.mem := rfl
@[simp] theorem State.skipPc_v (s : State) (c : Bool) : (s.skipPc c).v = s.v := rfl
@[simp] theorem State.skipPc_i (s : State) (c : Bool) : (s.skipPc c).i = s.i := rfl
@[simp] theorem State.skipPc_pc (s : State) (c : Bool) : (s.skipPc c).pc = s.pc + if c then 4 else 2 := rfl
@[simp] theorem State.skipPc_stack (s : State) (c : Bool) : (s.skipPc c).stack = s.stack := rfl
@[simp] theorem State.skipPc_dt (s : State) (c : Bool) : (s.skipPc c).dt = s.dt := rfl
@[simp] theorem State.skipPc_st (s : State) (c : Bool) : (s.skipPc c).st = s.st := rfl
@[simp] theorem State.skipPc_keys (s : State) (c : Bool) : (s.skipPc c).keys = s.keys := rfl
@[simp] theorem State.skipPc_fb (s : State) (c : Bool) : (s.skipPc c).fb = s.fb := rfl
@[simp] theorem State.skipPc_dirty (s : State) (c : Bool) : (s.skipPc c).dirty = s.dirty := rfl
@[simp] theorem State.skipPc_blocked (s : State) (c : Bool) : (s.skipPc c).blocked = s.blocked := rfl
@[simp] theorem State.skipPc_pendingUnblock (s : State) (c : Bool) : (s.skipPc c).pendingUnblock = s.pendingUnblock := rfl
@[simp] theorem State.skipPc_lastKey (s : State) (c : Bool) : (s.skipPc c).lastKey = s.lastKey := rfl
@[simp] theorem State.skipPc_fault (s : State) (c : Bool) : (s.skipPc c).fault = s.fault := rfl
@[simp] theorem State.skipPc_cfg (s : State) (c : Bool) : (s.skipPc c).cfg = s.cfg := rfl
@[simp] theorem State.skipPc_env (s : State) (c : Bool) : (s.skipPc c).env = s.env := rfl

/-! ### memWrite -/

@[simp] theorem State.memWrite_loaded (s : State) (a : Nat) (b : Byte) : (s.memWrite a b).loaded = s.loaded := rfl
@[simp] theorem State.memWrite_mem (s : State) (a : Nat) (b : Byte) : (s.memWrite a b).mem = Memory.write s.background s.mem (effAddr a) b := rfl
@[simp] theorem State.memWrite_v (s : State) (a : Nat) (b : Byte) : (s.memWrite a b).v = s.v := rfl
@[simp] theorem State.memWrite_i (s : State) (a : Nat) (b : Byte) : (s.memWrite a b).i = s.i := rfl
@[simp] theorem State.memWrite_pc (s : State) (a : Nat) (b : Byte) : (s.memWrite a b).pc = s.pc := rfl
@[simp] theorem State.memWrite_stack (s : State) (a : Nat) (b : Byte) : (s.memWrite a b).stack = s.stack := rfl
@[simp] theorem State.memWrite_dt (s : State) (a : Nat) (b : Byte) : (s.memWrite a b).dt = s.dt := rfl
@[simp] theorem State.memWrite_st (s : State) (a : Nat) (b : Byte) : (s.memWrite a b).st = s.st := rfl
@[simp] theorem State.memWrite_keys (s : State) (a : Nat) (b : Byte) : (s.memWrite a b).keys = s.keys := rfl
@[simp] theorem State.memWrite_fb (s : State) (a : Nat) (b : Byte) : (s.memWrite a b).fb = s.fb := rfl
@[simp] theorem State.memWrite_dirty (s : State) (a : Nat) (b : Byte) : (s.memWrite a b).dirty = s.dirty := rfl
@[simp] theorem State.memWrite_blocked (s : State) (a : Nat) (b : Byte) : (s.memWrite a b).blocked = s.blocked := rfl
@[simp] theorem State.memWrite_pendingUnblock (s : State) (a : Nat) (b : Byte) : (s.memWrite a b).pendingUnblock = s.pendingUnblock := rfl
@[simp] theorem State.memWrite_lastKey (s : State) (a : Nat) (b : Byte) : (s.memWrite a b).lastKey = s.lastKey := rfl
@[simp] theorem State.memWrite_fault (s : State) (a : Nat) (b : Byte) : (s.memWrite a b).fault = s.fault := rfl
@[simp] theorem State.memWrite_cfg (s : State) (a : Nat) (b : Byte) : (s.memWrite a b).cfg = s.cfg := rfl
@[simp] theorem State.memWrite_env (s : State) (a : Nat) (b : Byte) : (s.memWrite a b).env = s.env := rfl

/-! ### raiseFault -/

@[simp] theorem State.raiseFault_loaded (s : State) (k : Fault) (op : Word) : (s.raiseFault k op).loaded = s.loaded := rfl
@[simp] theorem State.raiseFault_mem (s : State) (k : Fault) (op : Word) : (s.raiseFault k op).mem = s.mem := rfl
@[simp] theorem State.raiseFault_v (s : State) (k : Fault) (op : Word) : (s.raiseFault k op).v = s.v := rfl
@[simp] theorem State.raiseFault_i (s : State) (k : Fault) (op : Word) : (s.raiseFault k op).i = s.i := rfl
@[simp] theorem State.raiseFault_pc (s : State) (k : Fault) (op : Word) : (s.raiseFault k op).pc = s.pc := rfl
@[simp] theorem State.raiseFault_stack (s : State) (k : Fault) (op : Word) : (s.raiseFault k op).stack = s.stack := rfl
@[simp] theorem State.raiseFault_dt (s : State) (k : Fault) (op : Word) : (s.raiseFault k op).dt = s.dt := rfl
@[simp] theorem State.raiseFault_st (s : State) (k : Fault) (op : Word) : (s.raiseFault k op).st = s.st := rfl
@[simp] theorem State.raiseFault_keys (s : State) (k : Fault) (op : Word) : (s.raiseFault k op).keys = s.keys := rfl
@[simp] theorem State.raiseFault_fb (s : State) (k : Fault) (op : Word) : (s.raiseFault k op).fb = s.fb := rfl
@[simp] theorem State.raiseFault_dirty (s : State) (k : Fault) (op : Word) : (s.raiseFault k op).dirty = s.dirty := rfl
@[simp] theorem State.raiseFault_blocked (s : State) (k : Fault) (op : Word) : (s.raiseFault k op).blocked = s.blocked := rfl
@[simp] theorem State.raiseFault_pendingUnblock (s : State) (k : Fault) (op : Word) : (s.raiseFault k op).pendingUnblock = s.pendingUnblock := rfl
@[simp] theorem State.raiseFault_lastKey (s : State) (k : Fault) (op : Word) : (s.raiseFault k op).lastKey = s.lastKey := rfl
@[simp] theorem State.raiseFault_fault (s : State) (k : Fault) (op : Word) : (s.raiseFault k op).fault = some ⟨k, op, s.pc⟩ := rfl
@[simp] theorem State.raiseFault_cfg (s : State) (k : Fault) (op : Word) : (s.raiseFault k op).cfg = s.cfg := rfl
@[simp] theorem State.raiseFault_env (s : State) (k : Fault) (op : Word) : (s.raiseFault k op).env = s.env := rfl

/-! ### timerPass -/

@[simp] theorem State.timerPass_loaded (s : State) : (s.timerPass).loaded = s.loaded := rfl
@[simp] theorem State.timerPass_mem (s : State) : (s.timerPass).mem = s.mem := rfl
@[simp] theorem State.timerPass_v (s : State) : (s.timerPass).v = s.v := rfl
@[simp] theorem State.timerPass_i (s : State) : (s.timerPass).i = s.i := rfl
@[simp] theorem State.timerPass_pc (s : State) : (s.timerPass).pc = s.pc := rfl
@[simp] theorem State.timerPass_stack (s : State) : (s.timerPass).stack = s.stack := rfl
@[simp] theorem State.timerPass_dt (s : State) : (s.timerPass).dt = countDown s.dt := rfl
@[simp] theorem State.timerPass_st (s : State) : (s.timerPass).st = countDown s.st := rfl
@[simp] theorem State.timerPass_keys (s : State) : (s.timerPass).keys = s.keys := rfl
@[simp] theorem State.timerPass_fb (s : State) : (s.timerPass).fb = s.fb := rfl
@[simp] theorem State.timerPass_dirty (s : State) : (s.timerPass).dirty = s.dirty := rfl
@[simp] theorem State.timerPass_blocked (s : State) : (s.timerPass).blocked = s.blocked := rfl
@[simp] theorem State.timerPass_pendingUnblock (s : State) : (s.timerPass).pendingUnblock = s.pendingUnblock := rfl
@[simp] theorem State.timerPass_lastKey (s : State) : (s.timerPass).lastKey = s.lastKey := rfl
@[simp] theorem State.timerPass_fault (s : State) : (s.timerPass).fault = s.fault := rfl
@[simp] theorem State.timerPass_cfg (s : State) : (s.timerPass).cfg = s.cfg := rfl
@[simp] theorem State.timerPass_env (s : State) : (s.timerPass).env = s.env := rfl

/-! ### drawRandom -/

@[simp] theorem State.drawRandom_loaded (s : State) : (s.drawRandom).loaded = s.loaded := rfl
@[simp] theorem State.drawRandom_mem (s : State) : (s.drawRandom).mem = s.mem := rfl
@[simp] theorem State.drawRandom_v (s : State) : (s.drawRandom).v = s.v := rfl
@[simp] theorem State.drawRandom_i (s : State) : (s.drawRandom).i = s.i := rfl
@[simp] theorem State.drawRandom_pc (s : State) : (s.drawRandom).pc = s.pc := rfl
@[simp] theorem State.drawRandom_stack (s : State) : (s.drawRandom).stack = s.stack := rfl
@[simp] theorem State.drawRandom_dt (s : State) : (s.drawRandom).dt = s.dt := rfl
@[simp] theorem State.drawRandom_st (s : State) : (s.drawRandom).st = s.st := rfl
@[simp] theorem State.drawRandom_keys (s : State) : (s.drawRandom).keys = s.keys := rfl
@[simp] theorem State.drawRandom_fb (s : State) : (s.drawRandom).fb = s.fb := rfl
@[simp] theorem State.drawRandom_dirty (s : State) : (s.drawRandom).dirty = s.dirty := rfl
@[simp] theorem State.drawRandom_blocked (s : State) : (s.drawRandom).blocked = s.blocked := rfl
@[simp] theorem State.drawRandom_pendingUnblock (s : State) : (s.drawRandom).pendingUnblock = s.pendingUnblock := rfl
@[simp] theorem State.drawRandom_lastKey (s : State) : (s.drawRandom).lastKey = s.lastKey := rfl
@[simp] theorem State.drawRandom_fault (s : State) : (s.drawRandom).fault = s.fault := rfl
@[simp] theorem State.drawRandom_cfg (s : State) : (s.drawRandom).cfg = s.cfg := rfl
@[simp] theorem State.drawRandom_env (s : State) : (s.drawRandom).env = { s.env with draws := s.env.draws + 1 } := rfl

/-! ### storeBytes: only memory changes -/

theorem State.storeBytes_frame (s : State) (a : Nat) (bs : List Byte) :
    s.storeBytes a bs = { s with mem := (s.storeBytes a bs).mem } := by
  induction bs generalizing s a with
  | nil => rfl
  | cons b rest ih => rw [State.storeBytes, ih]; rfl

@[simp] theorem State.storeBytes_loaded (s : State) (a : Nat) (bs : List Byte) : (s.storeBytes a bs).loaded = s.loaded := by
  rw [State.storeBytes_frame]
@[simp] theorem State.storeBytes_v (s : State) (a : Nat) (bs : List Byte) : (s.storeBytes a bs).v = s.v := by
  rw [State.storeBytes_frame]
@[simp] theorem State.storeBytes_i (s : State) (a : Nat) (bs : List Byte) : (s.storeBytes a bs).i = s.i := by
  rw [State.storeBytes_frame]
@[simp] theorem State.storeBytes_pc (s : State) (a : Nat) (bs : List Byte) : (s.storeBytes a bs).pc = s.pc := by
  rw [State.storeBytes_frame]
@[simp] theorem State.storeBytes_stack (s : State) (a : Nat) (bs : List Byte) : (s.storeBytes a bs).stack = s.stack := by
  rw [State.storeBytes_frame]
@[simp] theorem State.storeBytes_dt (s : State) (a : Nat) (bs : List Byte) : (s.storeBytes a bs).dt = s.dt := by
  rw [State.storeBytes_frame]
@[simp] theorem State.storeBytes_st (s : State) (a : Nat) (bs : List Byte) : (s.storeBytes a bs).st = s.st := by
  rw [State.storeBytes_frame]
@[simp] theorem State.storeBytes_keys (s : State) (a : Nat) (bs : List Byte) : (s.storeBytes a bs).keys = s.keys := by
  rw [State.storeBytes_frame]
@[simp] theorem State.storeBytes_fb (s : State) (a : Nat) (bs : List Byte) : (s.storeBytes a bs).fb = s.fb := by
  rw [State.storeBytes_frame]
@[simp] theorem State.storeBytes_dirty (s : State) (a : Nat) (bs : List Byte) : (s.storeBytes a bs).dirty = s.dirty := by
  rw [State.storeBytes_frame]
@[simp] theorem State.storeBytes_blocked (s : State) (a : Nat) (bs : List Byte) : (s.storeBytes a bs).blocked = s.blocked := by
  rw [State.storeBytes_frame]
@[simp] theorem State.storeBytes_pendingUnblock (s : State) (a : Nat) (bs : List Byte) : (s.storeBytes a bs).pendingUnblock = s.pendingUnblock := by
  rw [State.storeBytes_frame]
@[simp] theorem State.storeBytes_lastKey (s : State) (a : Nat) (bs : List Byte) : (s.storeBytes a bs).lastKey = s.lastKey := by
  rw [State.storeBytes_frame]
@[simp] theorem State.storeBytes_fault (s : State) (a : Nat) (bs : List Byte) : (s.storeBytes a bs).fault = s.fault := by
  rw [State.storeBytes_frame]
@[simp] theorem State.storeBytes_cfg (s : State) (a : Nat) (bs : List Byte) : (s.storeBytes a bs).cfg = s.cfg := by
  rw [State.storeBytes_frame]
@[simp] theorem State.storeBytes_env (s : State) (a : Nat) (bs : List Byte) : (s.storeBytes a bs).env = s.env := by
  rw [State.storeBytes_frame]

end Sys2Proof.Machine
end

