-- ==== Sys2Proof/Laws/Memory.lean ====
section
/-! SUPPORT. Memory: read after write, the frame of a write, and the canonical form, which every memory operation keeps. -/

namespace Sys2Proof.Machine

variable {bg : Nat → Byte}

/-! ## The cell list -/

theorem Memory.read_insert (m : Memory) (a c : Nat) (b : Byte) :
    Memory.read bg (Memory.insert m a b) c = if a = c then b else Memory.read bg m c := by
  induction m with
  | nil => rfl
  | cons cell rest ih =>
    obtain ⟨k, d⟩ := cell
    simp only [Memory.insert]
    split_ifs with h₁ h₂ h₃ h₃ h₃ <;> simp only [Memory.read, ih] <;> split_ifs <;> first | rfl | omega

theorem Memory.read_erase_other (m : Memory) {a c : Nat} (h : a ≠ c) :
    Memory.read bg (Memory.erase m a) c = Memory.read bg m c := by
  induction m with
  | nil => rfl
  | cons cell rest ih =>
    obtain ⟨k, d⟩ := cell
    simp only [Memory.erase]
    split_ifs with h₁ <;> simp only [Memory.read, ih]
    rw [if_neg (by omega)]

/-- Below the first listed address a canonical memory reads as the background. -/
theorem Memory.read_below {m : Memory} {low a : Nat} (hm : Memory.wfAbove bg low m = true) (h : a < low) :
    Memory.read bg m a = bg a := by
  induction m generalizing low with
  | nil => rfl
  | cons cell rest ih =>
    obtain ⟨k, d⟩ := cell
    simp only [Memory.wfAbove, Bool.and_eq_true, decide_eq_true_eq] at hm
    rw [Memory.read, if_neg (by omega), ih hm.2 (by omega)]

theorem Memory.wfAbove_mono {m : Memory} {low low' : Nat} (hm : Memory.wfAbove bg low m = true) (h : low' ≤ low) :
    Memory.wfAbove bg low' m = true := by
  cases m with
  | nil => rfl
  | cons cell rest =>
    simp only [Memory.wfAbove, Bool.and_eq_true, decide_eq_true_eq] at hm ⊢
    exact ⟨⟨⟨by omega, hm.1.1.2⟩, hm.1.2⟩, hm.2⟩

theorem Memory.read_erase_same {m : Memory} {low : Nat} (a : Nat) (hm : Memory.wfAbove bg low m = true) :
    Memory.read bg (Memory.erase m a) a = bg a := by
  induction m generalizing low with
  | nil => rfl
  | cons cell rest ih =>
    obtain ⟨k, d⟩ := cell
    simp only [Memory.wfAbove, Bool.and_eq_true, decide_eq_true_eq] at hm
    simp only [Memory.erase]
    split_ifs with h
    · exact Memory.read_below hm.2 (by omega)
    · rw [Memory.read, if_neg h, ih hm.2]

/-- Read after write: the written byte at its address, every other address as before. -/
theorem Memory.read_write {m : Memory} (hm : Memory.wf bg m = true) (a c : Nat) (b : Byte) :
    Memory.read bg (Memory.write bg m a b) c = if a = c then b else Memory.read bg m c := by
  unfold Memory.write
  split_ifs with hb hac hac
  · subst hac; rw [Memory.read_erase_same a hm, hb]
  · exact Memory.read_erase_other m hac
  · subst hac; rw [Memory.read_insert, if_pos rfl]
  · rw [Memory.read_insert, if_neg hac]

/-- The frame of a write needs no canonical form. -/
theorem Memory.read_write_other (m : Memory) {a c : Nat} (b : Byte) (h : a ≠ c) :
    Memory.read bg (Memory.write bg m a b) c = Memory.read bg m c := by
  unfold Memory.write
  split_ifs
  · exact Memory.read_erase_other m h
  · rw [Memory.read_insert, if_neg h]

/-! ## The canonical form -/

theorem Memory.erase_wfAbove {m : Memory} {low : Nat} (a : Nat) (hm : Memory.wfAbove bg low m = true) :
    Memory.wfAbove bg low (Memory.erase m a) = true := by
  induction m generalizing low with
  | nil => rfl
  | cons cell rest ih =>
    obtain ⟨k, d⟩ := cell
    simp only [Memory.erase]
    have hm' := hm
    simp only [Memory.wfAbove, Bool.and_eq_true, decide_eq_true_eq] at hm
    split_ifs
    · exact Memory.wfAbove_mono hm.2 (by omega)
    · simp only [Memory.wfAbove, Bool.and_eq_true, decide_eq_true_eq]
      exact ⟨hm.1, ih hm.2⟩

theorem Memory.insert_wfAbove {m : Memory} {low a : Nat} {b : Byte} (hm : Memory.wfAbove bg low m = true)
    (hlow : low ≤ a) (ha : a < memSize) (hb : b ≠ bg a) : Memory.wfAbove bg low (Memory.insert m a b) = true := by
  induction m generalizing low with
  | nil => simp only [Memory.insert, Memory.wfAbove, Bool.and_eq_true, decide_eq_true_eq]; exact ⟨⟨⟨hlow, ha⟩, hb⟩, trivial⟩
  | cons cell rest ih =>
    obtain ⟨k, d⟩ := cell
    simp only [Memory.insert]
    simp only [Memory.wfAbove, Bool.and_eq_true, decide_eq_true_eq] at hm
    split_ifs with h₁ h₂ <;> simp only [Memory.wfAbove, Bool.and_eq_true, decide_eq_true_eq]
    · exact ⟨⟨⟨hlow, ha⟩, hb⟩, ⟨⟨by omega, hm.1.1.2⟩, hm.1.2⟩, hm.2⟩
    · subst h₂; exact ⟨⟨⟨hlow, ha⟩, hb⟩, hm.2⟩
    · exact ⟨hm.1, ih hm.2 (by omega)⟩

/-- A write inside the address space keeps the canonical form. -/
theorem Memory.write_wf {m : Memory} {a : Nat} (b : Byte) (hm : Memory.wf bg m = true) (ha : a < memSize) :
    Memory.wf bg (Memory.write bg m a b) = true := by
  unfold Memory.write
  split_ifs with hb
  · exact Memory.erase_wfAbove a hm
  · exact Memory.insert_wfAbove hm (Nat.zero_le a) ha hb

/-- The memory a load builds is canonical. -/
theorem Memory.ofBytes_wfAbove {low base : Nat} {bytes : List Byte} (hlow : low ≤ base)
    (h : base + bytes.length ≤ memSize) : Memory.wfAbove bg low (Memory.ofBytes bg base bytes) = true := by
  induction bytes generalizing low base with
  | nil => rfl
  | cons b rest ih =>
    simp only [List.length_cons] at h
    simp only [Memory.ofBytes]
    split_ifs with hb
    · exact ih (by omega) (by omega)
    · simp only [Memory.wfAbove, Bool.and_eq_true, decide_eq_true_eq]
      exact ⟨⟨⟨hlow, by omega⟩, hb⟩, ih (Nat.le_refl _) (by omega)⟩

/-- The memory a load builds reads as the loaded bytes, and as the background elsewhere. -/
theorem Memory.read_ofBytes (base : Nat) (bytes : List Byte) (a : Nat) :
    Memory.read bg (Memory.ofBytes bg base bytes) a =
      if base ≤ a then (bytes[a - base]?).getD (bg a) else bg a := by
  induction bytes generalizing base with
  | nil => simp [Memory.ofBytes, Memory.read]
  | cons b rest ih =>
    have hcell : Memory.read bg (Memory.ofBytes bg base (b :: rest)) a =
        if base = a then b else Memory.read bg (Memory.ofBytes bg (base + 1) rest) a := by
      simp only [Memory.ofBytes]
      by_cases hb : b = bg base
      · rw [if_pos hb]
        by_cases ha : base = a
        · subst ha; rw [if_pos rfl, ih, if_neg (by omega), hb]
        · rw [if_neg ha]
      · rw [if_neg hb, Memory.read]
    rw [hcell, ih]
    rcases Nat.lt_trichotomy base a with h | h | h
    · have hk : a - base = (a - (base + 1)) + 1 := by omega
      rw [if_neg (by omega), if_pos (by omega), if_pos (by omega), hk, List.getElem?_cons_succ]
    · subst h; simp
    · rw [if_neg (by omega), if_neg (by omega), if_neg (by omega)]

/-! ## The machine's reads and writes -/

theorem effAddr_lt (a : Nat) : effAddr a < memSize := Nat.mod_lt _ (by decide)

/-- What `memWrite` can do, in a state with a canonical memory. -/
theorem State.memRead_memWrite {s : State} (hm : s.memOk = true) (a c : Nat) (b : Byte) :
    (s.memWrite a b).memRead c = if effAddr a = effAddr c then b else s.memRead c :=
  Memory.read_write hm (effAddr a) (effAddr c) b

theorem State.memRead_memWrite_other (s : State) {a c : Nat} (b : Byte) (h : effAddr a ≠ effAddr c) :
    (s.memWrite a b).memRead c = s.memRead c :=
  Memory.read_write_other s.mem b h

theorem State.memWrite_memOk {s : State} (a : Nat) (b : Byte) (hm : s.memOk = true) : (s.memWrite a b).memOk = true :=
  Memory.write_wf b hm (effAddr_lt a)

/-- Every byte outside the stored ones reads as before. -/
theorem State.memRead_storeBytes_other (s : State) (a c : Nat) (bs : List Byte)
    (h : ∀ k, k < bs.length → effAddr c ≠ effAddr (a + k)) : (s.storeBytes a bs).memRead c = s.memRead c := by
  induction bs generalizing s a with
  | nil => rfl
  | cons b rest ih =>
    have h0 : effAddr a ≠ effAddr c := fun e => h 0 (by simp) (by simpa using e.symm)
    rw [State.storeBytes, ih, State.memRead_memWrite_other s b h0]
    intro k hk
    have := h (k + 1) (by simpa using hk)
    rwa [show a + 1 + k = a + (k + 1) by omega]

/-- Every stored byte reads back, while fewer bytes are stored than memory has. -/
theorem State.memRead_storeBytes {s : State} (hm : s.memOk = true) (a k : Nat) (bs : List Byte) (hk : k < bs.length)
    (hlen : bs.length ≤ memSize) : (s.storeBytes a bs).memRead (a + k) = bs[k] := by
  induction bs generalizing s a k with
  | nil => simp at hk
  | cons b rest ih =>
    rw [State.storeBytes]
    simp only [List.length_cons, memSize] at hk hlen
    cases k with
    | zero =>
      rw [State.memRead_storeBytes_other, State.memRead_memWrite hm]
      · simp
      · intro j hj
        simp only [effAddr, memSize]
        omega
    | succ k =>
      rw [show a + (k + 1) = a + 1 + k by omega,
        ih (State.memWrite_memOk a b hm) (a + 1) k (by omega) (by simp only [memSize]; omega)]
      simp

/-- What any address reads once bytes have been stored from I up. -/
theorem State.memRead_storeBytes_index {s : State} (hm : s.memOk = true) (bs : List Byte) (hlen : bs.length ≤ memSize)
    (a : Nat) : (s.storeBytes s.indexBase bs).memRead a = s.byteAfterStore bs a := by
  have hi := s.i.isLt
  simp only [State.byteAfterStore, State.indexBase, memSize] at *
  by_cases hk : (a + 65536 - s.i.toNat) % 4096 < bs.length
  · rw [List.getD_eq_getElem _ _ hk, ← State.memRead_storeBytes hm s.i.toNat _ bs hk hlen]
    have he : effAddr a = effAddr (s.i.toNat + (a + 65536 - s.i.toNat) % 4096) := by
      simp only [effAddr, memSize]; omega
    simp only [State.memRead, he]
  · rw [List.getD_eq_default _ _ (by omega)]
    exact State.memRead_storeBytes_other s _ a bs (fun k hlt he => hk (by simp only [effAddr, memSize] at he; omega))

theorem State.storeBytes_memOk {s : State} (a : Nat) (bs : List Byte) (hm : s.memOk = true) :
    (s.storeBytes a bs).memOk = true := by
  induction bs generalizing s a with
  | nil => exact hm
  | cons b rest ih => exact ih _ (State.memWrite_memOk a b hm)

end Sys2Proof.Machine
end

