-- ==== Sys2Proof/Laws/Ops.lean ====
section
/-! SUPPORT. What each shared operation can do, said once: registers, call stack, timers, host actions, the tick. -/

namespace Sys2Proof.Machine

/-! ## Registers -/

/-- A register reads back what was written to it, and every other one is as before. -/
theorem State.getV_setV (s : State) (x r : Reg) (b : Byte) : (s.setV x b).getV r = if x = r then b else s.getV r := by
  by_cases h : x = r
  · subst h; simp [State.getV, State.setV]
  · have h' : x.val ≠ r.val := fun e => h (Fin.ext e)
    simp [State.getV, State.setV, h, h']

@[simp] theorem State.getV_setV_same (s : State) (x : Reg) (b : Byte) : (s.setV x b).getV x = b := by
  rw [State.getV_setV, if_pos rfl]

theorem State.getV_setV_other (s : State) {x r : Reg} (b : Byte) (h : x ≠ r) : (s.setV x b).getV r = s.getV r := by
  rw [State.getV_setV, if_neg h]

/-- With a flag, VF holds the flag whatever `x` is (R127). -/
@[simp] theorem State.getV_setVFlag_regF (s : State) (x : Reg) (r f : Byte) : (s.setVFlag x r f).getV regF = f :=
  State.getV_setV_same _ _ _

theorem State.getV_setVFlag (s : State) (x q : Reg) (r f : Byte) :
    (s.setVFlag x r f).getV q = if regF = q then f else if x = q then r else s.getV q := by
  rw [State.setVFlag, State.getV_setV, State.getV_setV]

@[simp] theorem State.getV_goto (s : State) (w : Word) (r : Reg) : (s.goto w).getV r = s.getV r := rfl
@[simp] theorem State.getV_nextPc (s : State) (r : Reg) : s.nextPc.getV r = s.getV r := rfl
@[simp] theorem State.getV_skipPc (s : State) (c : Bool) (r : Reg) : (s.skipPc c).getV r = s.getV r := rfl
@[simp] theorem State.getV_setI (s : State) (w : Word) (r : Reg) : (s.setI w).getV r = s.getV r := rfl
@[simp] theorem State.getV_drawRandom (s : State) (r : Reg) : s.drawRandom.getV r = s.getV r := rfl
@[simp] theorem State.getV_timerPass (s : State) (r : Reg) : s.timerPass.getV r = s.getV r := rfl
@[simp] theorem State.getV_storeBytes (s : State) (a : Nat) (bs : List Byte) (r : Reg) :
    (s.storeBytes a bs).getV r = s.getV r := by simp [State.getV]

@[simp] theorem State.memRead_goto (s : State) (w : Word) (a : Nat) : (s.goto w).memRead a = s.memRead a := rfl
@[simp] theorem State.memRead_nextPc (s : State) (a : Nat) : s.nextPc.memRead a = s.memRead a := rfl
@[simp] theorem State.memRead_skipPc (s : State) (c : Bool) (a : Nat) : (s.skipPc c).memRead a = s.memRead a := rfl
@[simp] theorem State.memRead_setV (s : State) (x : Reg) (b : Byte) (a : Nat) :
    (s.setV x b).memRead a = s.memRead a := rfl
@[simp] theorem State.memRead_setVFlag (s : State) (x : Reg) (r f : Byte) (a : Nat) :
    (s.setVFlag x r f).memRead a = s.memRead a := rfl
@[simp] theorem State.memRead_setI (s : State) (w : Word) (a : Nat) : (s.setI w).memRead a = s.memRead a := rfl
@[simp] theorem State.memRead_timerPass (s : State) (a : Nat) : s.timerPass.memRead a = s.memRead a := rfl
@[simp] theorem State.fetch_timerPass (s : State) : s.timerPass.fetch = s.fetch := rfl

/-- Two states with the same memory, font and PC fetch the same word. -/
theorem State.fetch_congr {s t : State} (hm : t.mem = s.mem) (hc : t.cfg = s.cfg) (hp : t.pc = s.pc) :
    t.fetch = s.fetch := by
  simp [State.fetch, State.memRead, State.background, hm, hc, hp]

/-! ## Call stack -/

/-- What `Push` can do. -/
theorem State.push_eq_some {s t : State} {w : Word} (h : s.push w = some t) :
    s.cfg.stackLimit ≠ some s.stack.length ∧ t = { s with stack := s.stack ++ [w] } := by
  unfold State.push State.stackFull at h
  split_ifs at h with hf
  exact ⟨by simpa using hf, by simpa using h.symm⟩

theorem State.push_of_full {s : State} {w : Word} (h : s.cfg.stackLimit = some s.stack.length) : s.push w = none := by
  simp [State.push, State.stackFull, h]

theorem State.push_of_room {s : State} {w : Word} (h : s.cfg.stackLimit ≠ some s.stack.length) :
    s.push w = some { s with stack := s.stack ++ [w] } := by
  simp [State.push, State.stackFull, h]

theorem State.pop_of_empty {s : State} (h : s.stack = []) : s.pop = none := by
  simp [State.pop, h]

theorem State.pop_of_concat {s : State} {st : List Word} {a : Word} (h : s.stack = st ++ [a]) :
    s.pop = some (a, { s with stack := st }) := by
  simp [State.pop, h]

/-- What `Pop` can do. -/
theorem State.pop_eq_some {s t : State} {a : Word} (h : s.pop = some (a, t)) :
    s.stack = t.stack ++ [a] ∧ t = { s with stack := t.stack } := by
  rcases List.eq_nil_or_concat s.stack with he | ⟨st, b, he⟩
  · rw [State.pop_of_empty he] at h; cases h
  · rw [List.concat_eq_append] at he; rw [State.pop_of_concat he] at h; cases h; exact ⟨he, rfl⟩

theorem State.pop_eq_none {s : State} (h : s.pop = none) : s.stack = [] := by
  rcases List.eq_nil_or_concat s.stack with he | ⟨st, b, he⟩
  · exact he
  · rw [List.concat_eq_append] at he; rw [State.pop_of_concat he] at h; cases h

/-! ## Timers -/

theorem countDown_toNat (b : Byte) : (countDown b).toNat = b.toNat - 1 := by
  revert b; decide

/-! ## Keys -/

/-- `pressed` on a code below 16 is that key's state (R276). -/
theorem State.pressed_key (s : State) (k : Key) : s.pressed (keyByte k) = s.keys[k] := by
  have : (keyByte k).toNat = k.val := by revert k; decide
  simp [State.pressed, this]

/-- No byte from 16 up is a pressed key (R276). -/
theorem State.pressed_big (s : State) {b : Byte} (h : 16 ≤ b.toNat) : s.pressed b = false := by
  simp [State.pressed, h]

/-! ## Host actions -/

/-- What one host action other than a successful load can do (R306). -/
theorem State.act_frame (s : State) (a : HostAction) (h : a.isGoodLoad = false) :
    s.act a = { s with keys := (s.act a).keys, dirty := (s.act a).dirty, blocked := (s.act a).blocked,
                       pendingUnblock := (s.act a).pendingUnblock, lastKey := (s.act a).lastKey } := by
  cases a with
  | load rom =>
    have h' : ¬ rom.length ≤ romMax := by simpa [HostAction.isGoodLoad] using h
    simp [State.act, State.loadRom, h']
  | keyDown c => simp only [State.act, State.keyDown]; split_ifs <;> rfl
  | keyUp c => simp only [State.act, State.keyUp]; split_ifs <;> rfl
  | clearDirty => simp only [State.act, State.clearDirty]; split_ifs <;> rfl
  | frame => rfl
  | isSoundActive => rfl

/-- A successful load (R351). -/
theorem State.act_goodLoad (s : State) {rom : List Byte} (h : rom.length ≤ romMax) :
    s.act (.load rom) =
      State.initial s.cfg s.env (Memory.ofBytes (Memory.background s.cfg.font) romBase rom) := by
  simp [State.act, State.loadRom, h]

@[simp] theorem State.act_cfg (s : State) (a : HostAction) : (s.act a).cfg = s.cfg := by
  cases a <;> simp only [State.act, State.loadRom, State.keyDown, State.keyUp, State.clearDirty] <;> split_ifs <;> rfl

@[simp] theorem State.act_env (s : State) (a : HostAction) : (s.act a).env = s.env := by
  cases a <;> simp only [State.act, State.loadRom, State.keyDown, State.keyUp, State.clearDirty] <;> split_ifs <;> rfl

/-- A property that every host action keeps is kept by a batch. -/
theorem State.acts_induction {P : State → Prop} (hact : ∀ s a, P s → P (s.act a)) (s : State)
    (batch : List HostAction) (h : P s) : P (s.acts batch) := by
  induction batch generalizing s with
  | nil => exact h
  | cons a rest ih => exact ih _ (hact s a h)

/-- The same, for the actions of one batch only. -/
theorem State.acts_induction_mem {P : State → Prop} (batch : List HostAction)
    (hact : ∀ s, ∀ a ∈ batch, P s → P (s.act a)) (s : State) (h : P s) : P (s.acts batch) := by
  induction batch generalizing s with
  | nil => exact h
  | cons a rest ih =>
    exact ih (fun s b hb => hact s b (by simp [hb])) _ (hact s a (by simp) h)

/-- Delivery takes the next batch off the schedule and applies it. -/
theorem State.deliver_eq (s : State) :
    s.deliver = State.acts { s with env := { s.env with inputs := s.env.inputs.tail } } s.nextBatch := by
  unfold State.deliver State.nextBatch
  cases h : s.env.inputs with
  | nil =>
    obtain ⟨⟩ := s
    rename_i env
    obtain ⟨draws, inputs⟩ := env
    simp_all [State.acts]
  | cons b rest => rfl

/-! ## The tick -/

theorem tick_unloaded {s : State} (h : s.loaded = false) : tick s = .next s := by simp [tick, h]

theorem tick_faulted {s : State} {r : FaultRecord} (h : s.fault = some r) : tick s = .next s := by simp [tick, h]

theorem tick_blocked {s : State} (hl : s.loaded = true) (hf : s.fault = none) (hb : s.blocked = true) :
    tick s = .next s.timerPass := by simp [tick, hl, hf, hb]

theorem tick_running {s : State} (h : s.running = true) : tick s = interpret s.timerPass := by
  simp only [State.running, Bool.and_eq_true, Option.isNone_iff_eq_none, Bool.not_eq_true'] at h
  simp [tick, h]

@[simp] theorem State.tickResult_unloaded {s : State} (h : s.loaded = false) : s.tickResult = .ok := by
  simp [State.tickResult, h]

@[simp] theorem State.tickResult_fault {s : State} {r : FaultRecord} (hl : s.loaded = true) (hf : s.fault = some r) :
    s.tickResult = .fault r := by simp [State.tickResult, hl, hf]

/-- A loaded machine's tick returned Ok exactly if no fault is latched. -/
theorem State.tickResult_ok_iff {s : State} (hl : s.loaded = true) : s.tickResult = .ok ↔ s.fault = none := by
  cases hf : s.fault <;> simp [State.tickResult, hl, hf]

theorem interpret_instr {s : State} {i : Instr} (h : decodeWord s.fetch = .instr i) : interpret s = exec i s := by
  simp [interpret, h]

theorem interpret_unknown {s : State} {op : Word} (h : decodeWord s.fetch = .unknownOpcode op) :
    interpret s = .next (s.raiseFault .unknownOpcode op) := by
  simp [interpret, h]

/-- Every case of a tick. -/
theorem tick_cases (s : State) :
    (s.loaded = false ∧ tick s = .next s) ∨
    (s.loaded = true ∧ (∃ r, s.fault = some r) ∧ tick s = .next s) ∨
    (s.loaded = true ∧ s.fault = none ∧ s.blocked = true ∧ tick s = .next s.timerPass) ∨
    (s.running = true ∧ (∃ i, decodeWord s.fetch = .instr i ∧ tick s = exec i s.timerPass)) ∨
    (s.running = true ∧ (∃ op, decodeWord s.fetch = .unknownOpcode op ∧
      tick s = .next (s.timerPass.raiseFault .unknownOpcode op))) := by
  cases hl : s.loaded with
  | false => exact .inl ⟨rfl, tick_unloaded hl⟩
  | true =>
    cases hf : s.fault with
    | some r => exact .inr (.inl ⟨rfl, ⟨r, rfl⟩, tick_faulted hf⟩)
    | none =>
      cases hb : s.blocked with
      | true => exact .inr (.inr (.inl ⟨rfl, rfl, rfl, tick_blocked hl hf hb⟩))
      | false =>
        have hr : s.running = true := by simp [State.running, hl, hf, hb]
        cases hd : decodeWord s.fetch with
        | instr i => exact .inr (.inr (.inr (.inl ⟨hr, i, rfl, by rw [tick_running hr, interpret_instr (s := s.timerPass) hd]⟩)))
        | unknownOpcode op =>
          exact .inr (.inr (.inr (.inr ⟨hr, op, rfl, by rw [tick_running hr, interpret_unknown (s := s.timerPass) hd]⟩)))

end Sys2Proof.Machine
end

