-- ==== Sys2Proof/Laws/Display.lean ====
section
/-! SUPPORT. The framebuffer operations pixel by pixel: toggling, one sprite row, a whole sprite, clearing. -/

namespace Sys2Proof.Machine

/-- A matrix of the right shape, as equations. -/
theorem Framebuffer.wf_iff (h w : Nat) (fb : Framebuffer) :
    Framebuffer.wf h w fb = true ↔ fb.length = h ∧ ∀ line ∈ fb, line.length = w := by
  simp [Framebuffer.wf]

theorem Framebuffer.blank_wf (h w : Nat) : Framebuffer.wf h w (Framebuffer.blank h w) = true := by
  simp [Framebuffer.wf_iff, Framebuffer.blank]

theorem Framebuffer.pixel_blank (h w r c : Nat) : (Framebuffer.blank h w).pixel r c = false := by
  simp only [Framebuffer.pixel, Framebuffer.blank, List.getD_eq_getElem?_getD, List.getElem?_replicate]
  split_ifs with hr
  · simp only [Option.getD_some, List.getElem?_replicate]; split_ifs <;> rfl
  · simp

theorem Framebuffer.toggle_wf {h w : Nat} {fb : Framebuffer} (row col : Nat) (hw : Framebuffer.wf h w fb = true) :
    Framebuffer.wf h w (fb.toggle row col) = true := by
  rw [Framebuffer.wf_iff] at hw ⊢
  refine ⟨by simp [Framebuffer.toggle, hw.1], fun line hl => ?_⟩
  obtain ⟨k, hk, rfl⟩ := List.getElem_of_mem hl
  simp only [Framebuffer.toggle, List.length_modify] at hk
  have := hw.2 _ (List.getElem_mem hk)
  simp only [Framebuffer.toggle, List.getElem_modify]
  split_ifs <;> simp [this]

/-- Toggling an on-screen pixel flips it and no other. -/
theorem Framebuffer.pixel_toggle {h w : Nat} {fb : Framebuffer} {row col : Nat} (hw : Framebuffer.wf h w fb = true)
    (hr : row < h) (hc : col < w) (r c : Nat) :
    (fb.toggle row col).pixel r c = (fb.pixel r c ^^ (decide (r = row) && decide (c = col))) := by
  rw [Framebuffer.wf_iff] at hw
  simp only [Framebuffer.pixel, Framebuffer.toggle, List.getD_eq_getElem?_getD, List.getElem?_modify]
  by_cases h1 : row = r
  · subst h1
    have hlt : row < fb.length := by omega
    have hlen : fb[row].length = w := hw.2 _ (List.getElem_mem hlt)
    by_cases h2 : col = c
    · subst h2; simp [hlt, hlen, hc]
    · have h2' : c ≠ col := fun e => h2 e.symm
      simp [hlt, h2, h2']
  · have h1' : r ≠ row := fun e => h1 e.symm
    simp [h1, h1']

/-- Two matrices of one shape that agree on every pixel are equal. -/
theorem Framebuffer.ext_pixel {h w : Nat} {f g : Framebuffer} (hf : Framebuffer.wf h w f = true)
    (hg : Framebuffer.wf h w g = true) (hp : ∀ r c, f.pixel r c = g.pixel r c) : f = g := by
  rw [Framebuffer.wf_iff] at hf hg
  refine List.ext_getElem (by omega) fun r h1 h2 => ?_
  have l1 := hf.2 _ (List.getElem_mem h1)
  have l2 := hg.2 _ (List.getElem_mem h2)
  refine List.ext_getElem (by omega) fun c h3 h4 => ?_
  simpa [Framebuffer.pixel, List.getD_eq_getElem?_getD, h1, h2, h3, h4] using hp r c

/-- The on-screen 1 bits of a sprite drawn with its corner at row `cy`, column `cx` (R151, R153, R154). -/
def litAt (h w cx cy : Nat) (bytes : List Byte) (r c : Nat) : Bool :=
  decide (cy ≤ r) && decide (r < h) && decide (cx ≤ c) && decide (c < cx + 8) && decide (c < w) &&
    ((bytes[r - cy]?).map (fun b => b.getLsbD (7 - (c - cx)))).getD false

/-- What a drawing step made of `lit` pixels may do to the framebuffer and the collision so far. -/
structure DrawnBy (h w : Nat) (lit : Nat → Nat → Bool) (acc acc' : Framebuffer × Bool) : Prop where
  wf    : Framebuffer.wf h w acc'.1 = true
  pixel : ∀ r c, acc'.1.pixel r c = (acc.1.pixel r c ^^ lit r c)
  coll  : acc'.2 = true ↔ acc.2 = true ∨ ∃ r c, lit r c = true ∧ acc.1.pixel r c = true

theorem DrawnBy.refl {h w : Nat} {acc : Framebuffer × Bool} (hw : Framebuffer.wf h w acc.1 = true) :
    DrawnBy h w (fun _ _ => false) acc acc := ⟨hw, by simp, by simp⟩

/-- Two steps with no pixel in common make one. -/
theorem DrawnBy.trans {h w : Nat} {l₁ l₂ : Nat → Nat → Bool} {a b c : Framebuffer × Bool} (h₁ : DrawnBy h w l₁ a b)
    (h₂ : DrawnBy h w l₂ b c) (hd : ∀ r q, l₁ r q = true → l₂ r q = false) :
    DrawnBy h w (fun r q => l₁ r q || l₂ r q) a c := by
  refine ⟨h₂.wf, fun r q => ?_, ?_⟩
  · rw [h₂.pixel, h₁.pixel]
    have := hd r q
    cases h1 : l₁ r q <;> cases h2 : l₂ r q <;> simp_all
  · rw [h₂.coll, h₁.coll]
    constructor
    · rintro ((hc | ⟨r, q, hl, hp⟩) | ⟨r, q, hl, hp⟩)
      · exact .inl hc
      · exact .inr ⟨r, q, by simp [hl], hp⟩
      · have hl1 : l₁ r q = false := by
          cases h1 : l₁ r q with
          | false => rfl
          | true => rw [hd r q h1] at hl; cases hl
        exact .inr ⟨r, q, by simp [hl], by rwa [h₁.pixel, hl1, Bool.xor_false] at hp⟩
    · rintro (hc | ⟨r, q, hl, hp⟩)
      · exact .inl (.inl hc)
      · cases h1 : l₁ r q with
        | true => exact .inl (.inr ⟨r, q, h1, hp⟩)
        | false =>
          refine .inr ⟨r, q, by simpa [h1] using hl, ?_⟩
          rw [h₁.pixel, h1, Bool.xor_false, hp]

theorem DrawnBy.congr {h w : Nat} {l l' : Nat → Nat → Bool} {a b : Framebuffer × Bool} (hd : DrawnBy h w l a b)
    (hl : ∀ r c, l r c = l' r c) : DrawnBy h w l' a b := by
  have : l = l' := by funext r c; exact hl r c
  exact this ▸ hd

theorem drawPixel_drawn {h w : Nat} {acc : Framebuffer × Bool} (row col : Nat)
    (hw : Framebuffer.wf h w acc.1 = true) :
    DrawnBy h w (fun r c => decide (r = row) && decide (c = col) && decide (row < h) && decide (col < w)) acc
      (drawPixel h w row col acc) := by
  unfold drawPixel
  split_ifs with hin
  · refine ⟨Framebuffer.toggle_wf row col hw, fun r c => ?_, ?_⟩
    · simp [Framebuffer.pixel_toggle hw hin.1 hin.2, hin]
    · simp only [Bool.or_eq_true]
      constructor
      · rintro (hc | hp)
        · exact .inl hc
        · exact .inr ⟨row, col, by simp [hin], hp⟩
      · rintro (hc | ⟨r, c, hl, hp⟩)
        · exact .inl hc
        · simp only [Bool.and_eq_true, decide_eq_true_eq] at hl
          obtain ⟨⟨⟨rfl, rfl⟩, _⟩, _⟩ := hl
          exact .inr hp
  · refine (DrawnBy.refl hw).congr fun r c => ?_
    by_cases h1 : row < h <;> by_cases h2 : col < w <;> simp_all

/-- The first `m` pixels of a sprite byte. -/
theorem drawRow_prefix {h w : Nat} (row cx : Nat) (b : Byte) (acc : Framebuffer × Bool)
    (hw : Framebuffer.wf h w acc.1 = true) (m : Nat) :
    DrawnBy h w (fun r c => decide (r = row) && decide (row < h) && decide (cx ≤ c) && decide (c < cx + m) &&
        decide (c < w) && b.getLsbD (7 - (c - cx))) acc
      ((List.range m).foldl (fun acc k => if b.getLsbD (7 - k) then drawPixel h w row (cx + k) acc else acc) acc) := by
  induction m with
  | zero =>
    refine (DrawnBy.refl hw).congr fun r c => ?_
    by_cases h1 : cx ≤ c <;> by_cases h2 : c < cx <;> (simp [h1, h2]; try omega)
  | succ m ih =>
    rw [List.range_succ, List.foldl_append, List.foldl_cons, List.foldl_nil]
    cases hb : b.getLsbD (7 - m) with
    | false =>
      simp only [Bool.false_eq_true, if_false]
      refine ih.congr fun r c => ?_
      by_cases h1 : c = cx + m
      · subst h1
        have hk : cx + m - cx = m := by omega
        simp [hk, hb]
      · by_cases h2 : c < cx + m
        · have h3 : c < cx + (m + 1) := by omega
          simp [h2, h3]
        · have h3 : ¬ c < cx + (m + 1) := by omega
          simp [h2, h3]
    | true =>
      simp only [if_true]
      refine (ih.trans (drawPixel_drawn row (cx + m) ih.wf) ?_).congr fun r c => ?_
      · intro r q hl
        simp only [Bool.and_eq_true, decide_eq_true_eq] at hl
        have : q ≠ cx + m := by omega
        simp [this]
      · by_cases h1 : c = cx + m
        · subst h1
          have hk : cx + m - cx = m := by omega
          have h3 : cx + m < cx + (m + 1) := by omega
          simp [hk, hb, h3]
        · by_cases h2 : c < cx + m
          · have h3 : c < cx + (m + 1) := by omega
            simp [h1, h2, h3]
          · have h3 : ¬ c < cx + (m + 1) := by omega
            simp [h1, h2, h3]

/-- One sprite byte. -/
theorem drawRow_drawn {h w : Nat} (row cx : Nat) (b : Byte) {acc : Framebuffer × Bool}
    (hw : Framebuffer.wf h w acc.1 = true) :
    DrawnBy h w (litAt h w cx row [b]) acc (drawRow h w row cx b acc) := by
  refine (drawRow_prefix row cx b acc hw 8).congr fun r c => ?_
  simp only [litAt]
  by_cases h1 : r = row
  · subst h1; simp [Bool.and_assoc]
  · by_cases h2 : row ≤ r
    · have : r - row = (r - row - 1) + 1 := by omega
      rw [this]; simp [h1]
    · simp [h1, h2]

/-- What drawing a sprite can do (R151–R154). -/
theorem drawSprite_drawn {h w : Nat} (cx cy : Nat) (bytes : List Byte) {acc : Framebuffer × Bool}
    (hw : Framebuffer.wf h w acc.1 = true) :
    DrawnBy h w (litAt h w cx cy bytes) acc (drawSprite h w cx cy bytes acc) := by
  induction bytes generalizing cy acc with
  | nil => exact (DrawnBy.refl hw).congr fun r c => by simp [litAt]
  | cons b rest ih =>
    have hrow := drawRow_drawn (h := h) (w := w) cy cx b hw
    refine (hrow.trans (ih (cy + 1) hrow.wf) ?_).congr fun r c => ?_
    · intro r q hl
      simp only [litAt, Bool.and_eq_true, decide_eq_true_eq] at hl
      have h0 : r = cy := by
        by_contra hne
        have : r - cy = (r - cy - 1) + 1 := by omega
        rw [this] at hl
        simp at hl
      have : ¬ cy + 1 ≤ r := by omega
      simp [litAt, this]
    · simp only [litAt]
      rcases Nat.lt_trichotomy r cy with h0 | h0 | h0
      · have h1 : ¬ cy ≤ r := by omega
        have h2 : ¬ cy + 1 ≤ r := by omega
        simp [h1, h2]
      · subst h0
        have h2 : ¬ r + 1 ≤ r := by omega
        simp [h2]
      · have h1 : cy ≤ r := by omega
        have h2 : cy + 1 ≤ r := by omega
        have h3 : r - cy = (r - (cy + 1)) + 1 := by omega
        rw [h3]
        simp [h1, h2]

end Sys2Proof.Machine
end

