-- ==== Sys2Proof/Laws/Exec.lean ====
section
/-! SUPPORT. The cases of the three meanings that branch, the register block transfers, and delivery of host actions. -/

namespace Sys2Proof.Machine

/-! ## The meanings that branch -/

/-- CALL pushes and jumps, or faults on a full stack (R172). -/
theorem exec_call_cases (n : Word) (s : State) :
    (s.cfg.stackLimit = some s.stack.length ∧
      exec (.call n) s = .next (s.raiseFault .stackOverflow (encode (.call n)))) ∨
    (s.cfg.stackLimit ≠ some s.stack.length ∧
      exec (.call n) s = .next { s with stack := s.stack ++ [s.pc], pc := n }) := by
  by_cases h : s.cfg.stackLimit = some s.stack.length
  · exact .inl ⟨h, by simp [exec, execCall, State.push_of_full h]⟩
  · exact .inr ⟨h, by simp [exec, execCall, State.push_of_room h, State.goto]⟩

/-- RET pops and resumes, or faults on an empty stack (R170). -/
theorem exec_ret_cases (s : State) :
    (s.stack = [] ∧ exec .ret s = .next (s.raiseFault .stackUnderflow 0x00EE)) ∨
    (∃ st a, s.stack = st ++ [a] ∧ exec .ret s = .next { s with stack := st, pc := a + 2 }) := by
  rcases List.eq_nil_or_concat s.stack with h | ⟨st, a, h⟩
  · exact .inl ⟨h, by simp [exec, execRet, State.pop_of_empty h, encode]⟩
  · rw [List.concat_eq_append] at h
    exact .inr ⟨st, a, h, by simp [exec, execRet, State.pop_of_concat h, State.goto]⟩

/-- Fx0A blocks, or completes with the recorded key (R273). -/
theorem exec_ldVxK_cases (x : Reg) (s : State) :
    (s.pendingUnblock = false ∧ exec (.ldVxK x) s = .next { s with blocked := true }) ∨
    (s.pendingUnblock = true ∧ exec (.ldVxK x) s =
      .next (State.nextPc (State.setV { s with pendingUnblock := false, lastKey := none } x
        ((s.lastKey.map keyByte).getD (s.getV x))))) := by
  cases h : s.pendingUnblock
  · exact .inl ⟨rfl, by simp [exec, execLdVxK, h]⟩
  · exact .inr ⟨rfl, by simp [exec, execLdVxK, h]⟩

/-! ## Register block transfers -/

theorem State.regBlock_length (s : State) (x : Reg) : (s.regBlock x).length = x.val + 1 := by
  have := x.isLt
  simp [State.regBlock]

theorem State.regBlock_getElem (s : State) (x k : Reg) (h : k.val < (s.regBlock x).length) :
    (s.regBlock x)[k.val] = s.getV k := by
  simp [State.regBlock, State.getV]

/-- Every register of the block reads back from where Fx55 stored it. -/
theorem State.memRead_storeBlock {s : State} {x k : Reg} (hm : s.memOk = true) (hk : k ≤ x) :
    (s.storeBytes s.indexBase (s.regBlock x)).memRead (s.i.toNat + k.val) = s.getV k := by
  have hl := s.regBlock_length x
  have := x.isLt
  have hk' : k.val < (s.regBlock x).length := by
    have : k.val ≤ x.val := hk
    omega
  rw [← s.regBlock_getElem x k hk']
  exact State.memRead_storeBytes hm s.indexBase k.val _ hk' (by simp only [memSize]; omega)

/-- What Fx65 puts in each register. -/
theorem State.getV_loadBlock (s : State) (x k : Reg) :
    State.getV { s with v := s.loadBlock x } k = if k ≤ x then s.memRead (s.i.toNat + k.val) else s.getV k := by
  simp [State.getV, State.loadBlock, State.indexBase]

/-- The stored memory depends on memory, font and bytes only. -/
theorem State.storeBytes_mem_congr {s t : State} (a : Nat) (bs : List Byte) (hm : t.mem = s.mem)
    (hc : t.cfg = s.cfg) : (t.storeBytes a bs).mem = (s.storeBytes a bs).mem := by
  induction bs generalizing s t a with
  | nil => exact hm
  | cons b r ih => exact ih _ (by simp [State.background, hm, hc]) hc

/-! ## Delivery -/

theorem State.running_iff (s : State) : s.running = true ↔ s.loaded = true ∧ s.fault = none ∧ s.blocked = false := by
  simp [State.running, and_assoc]

theorem State.deliver_env (s : State) : s.deliver.env = { s.env with inputs := s.env.inputs.tail } := by
  rw [State.deliver_eq]
  exact State.acts_induction (P := fun u => u.env = { s.env with inputs := s.env.inputs.tail })
    (fun u a hu => by rw [State.act_env, hu]) _ _ rfl

theorem State.deliver_cfg (s : State) : s.deliver.cfg = s.cfg := by
  rw [State.deliver_eq]
  exact State.acts_induction (P := fun u => u.cfg = s.cfg) (fun u a hu => by rw [State.act_cfg, hu]) _ _ rfl

/-- Without a successful load, delivery touches keys, dirty flag, block state and schedule only. -/
theorem State.deliver_frame (s : State) (h : ∀ a ∈ s.nextBatch, a.isGoodLoad = false) :
    s.deliver = { s with keys := s.deliver.keys, dirty := s.deliver.dirty, blocked := s.deliver.blocked,
                         pendingUnblock := s.deliver.pendingUnblock, lastKey := s.deliver.lastKey,
                         env := { s.env with inputs := s.env.inputs.tail } } := by
  rw [State.deliver_eq]
  refine State.acts_induction_mem (P := fun t => t =
    { s with keys := t.keys, dirty := t.dirty, blocked := t.blocked, pendingUnblock := t.pendingUnblock,
             lastKey := t.lastKey, env := { s.env with inputs := s.env.inputs.tail } }) s.nextBatch ?_ _ rfl
  intro u a ha hu
  rw [State.act_frame u a (h a ha)]
  rw [hu]

/-- An action that does not end the wait touches keys and dirty flag only. -/
theorem State.act_noWait (s : State) (a : HostAction) (h : a.endsWait = false) :
    s.act a = { s with keys := (s.act a).keys, dirty := (s.act a).dirty } := by
  cases a with
  | load rom =>
    have hr : ¬ rom.length ≤ romMax := by simpa [HostAction.endsWait] using h
    simp only [State.act, State.loadRom, if_neg hr]
  | keyDown c => cases h
  | keyUp c => simp only [State.act, State.keyUp]; split <;> rfl
  | clearDirty => simp only [State.act, State.clearDirty]; split <;> rfl
  | frame => rfl
  | isSoundActive => rfl

/-- So do any number of them, in any order. -/
theorem State.acts_noWait (s : State) (batch : List HostAction) (h : ∀ a ∈ batch, a.endsWait = false) :
    s.acts batch = { s with keys := (s.acts batch).keys, dirty := (s.acts batch).dirty } := by
  refine State.acts_induction_mem (P := fun t => t = { s with keys := t.keys, dirty := t.dirty }) batch ?_ _ rfl
  intro u a ha hu
  rw [State.act_noWait u a (h a ha)]
  rw [hu]

/-- `pressed` in words: the byte is the code of a pressed key (R276). -/
theorem State.pressed_iff (s : State) (b : Byte) :
    s.pressed b = true ↔ ∃ k : Key, k.val = b.toNat ∧ s.keys[k] = true := by
  have hkey : ∀ k : Key, k.val = b.toNat → b = keyByte k := fun k h =>
    BitVec.eq_of_toNat_eq (by rw [← h]; exact (by decide : ∀ k : Key, k.val = (keyByte k).toNat) k)
  constructor
  · intro h
    by_cases hb : b.toNat < 16
    · refine ⟨⟨b.toNat, hb⟩, rfl, ?_⟩
      rw [hkey ⟨b.toNat, hb⟩ rfl, State.pressed_key] at h
      exact h
    · rw [State.pressed_big _ (by omega)] at h
      cases h
  · rintro ⟨k, hk, h⟩
    rw [hkey k hk, State.pressed_key]
    exact h

/-- The lit pixels of `spriteLit` are those `drawSprite` draws. -/
theorem State.litAt_spriteBytes (s : State) (x y : Reg) (n r c : Nat) :
    litAt s.cfg.fbH s.cfg.fbW (s.getV x).toNat (s.getV y).toNat (s.spriteBytes n) r c = s.spriteLit x y n r c := by
  simp only [litAt, State.spriteLit]
  by_cases h1 : (s.getV y).toNat ≤ r
  · by_cases h2 : r < (s.getV y).toNat + n
    · have h3 : r - (s.getV y).toNat < n := by omega
      simp [State.spriteBytes, State.readBytes, h1, h2, h3, State.indexBase]
    · have h3 : ¬ r - (s.getV y).toNat < n := by omega
      simp [State.spriteBytes, State.readBytes, h1, h2, h3]
  · simp [h1]

end Sys2Proof.Machine
end

