-- ==== Sys2Proof/Laws/PerInstr.lean ====
section
/-! SUPPORT. Per-instruction family RowOfWord: the encoded word of a well-formed instruction belongs to the row of R94
that bears the instruction's name. -/

namespace Sys2Proof.Laws.RowOfWord

/-- The instruction's word is a word of the row with the instruction's name (R94, R99). -/
def Statement (i : Instr) : Prop :=
  i.wf = true → ∃ row ∈ opcodeMap, row.name = i.name ∧ row.hits (encode i) = true

theorem cls : Statement (.cls) := by
  intro _; exact ⟨⟨"CLS", 0x00E0, 0xFFFF⟩, by decide, rfl, by decide⟩

theorem ret : Statement (.ret) := by
  intro _; exact ⟨⟨"RET", 0x00EE, 0xFFFF⟩, by decide, rfl, by decide⟩

theorem jp (nnn : Word) : Statement (.jp nnn) := by
  intro h
  have hn : nnn.toNat < 4096 := by simpa [Instr.wf, addressFits] using h
  refine ⟨⟨"JP", 0x1000, 0xF000⟩, by decide, rfl, ?_⟩
  rw [hits_F000, decide_eq_true_eq, encode, encodeNNN_toNat hn (by omega)]
  change _ = 0x1000
  omega

theorem call (nnn : Word) : Statement (.call nnn) := by
  intro h
  have hn : nnn.toNat < 4096 := by simpa [Instr.wf, addressFits] using h
  refine ⟨⟨"CALL", 0x2000, 0xF000⟩, by decide, rfl, ?_⟩
  rw [hits_F000, decide_eq_true_eq, encode, encodeNNN_toNat hn (by omega)]
  change _ = 0x2000
  omega

theorem seImm (x : Reg) (nn : Byte) : Statement (.seImm x nn) := by
  intro _
  have hx := x.isLt
  have hn := nn.isLt
  refine ⟨⟨"SE_IMM", 0x3000, 0xF000⟩, by decide, rfl, ?_⟩
  rw [hits_F000, decide_eq_true_eq, encode, encodeXNN_toNat x nn (by omega)]
  change _ = 0x3000
  omega

theorem sneImm (x : Reg) (nn : Byte) : Statement (.sneImm x nn) := by
  intro _
  have hx := x.isLt
  have hn := nn.isLt
  refine ⟨⟨"SNE_IMM", 0x4000, 0xF000⟩, by decide, rfl, ?_⟩
  rw [hits_F000, decide_eq_true_eq, encode, encodeXNN_toNat x nn (by omega)]
  change _ = 0x4000
  omega

theorem seReg (x y : Reg) : Statement (.seReg x y) := by
  intro _
  have hx := x.isLt
  have hy := y.isLt
  refine ⟨⟨"SE_REG", 0x5000, 0xF00F⟩, by decide, rfl, ?_⟩
  rw [hits_F00F, decide_eq_true_eq, encode, encodeXY_toNat x y (by omega)]
  change _ = 0x5000
  omega

theorem ldImm (x : Reg) (nn : Byte) : Statement (.ldImm x nn) := by
  intro _
  have hx := x.isLt
  have hn := nn.isLt
  refine ⟨⟨"LD_IMM", 0x6000, 0xF000⟩, by decide, rfl, ?_⟩
  rw [hits_F000, decide_eq_true_eq, encode, encodeXNN_toNat x nn (by omega)]
  change _ = 0x6000
  omega

theorem addImm (x : Reg) (nn : Byte) : Statement (.addImm x nn) := by
  intro _
  have hx := x.isLt
  have hn := nn.isLt
  refine ⟨⟨"ADD_IMM", 0x7000, 0xF000⟩, by decide, rfl, ?_⟩
  rw [hits_F000, decide_eq_true_eq, encode, encodeXNN_toNat x nn (by omega)]
  change _ = 0x7000
  omega

theorem ldReg (x y : Reg) : Statement (.ldReg x y) := by
  intro _
  have hx := x.isLt
  have hy := y.isLt
  refine ⟨⟨"LD_REG", 0x8000, 0xF00F⟩, by decide, rfl, ?_⟩
  rw [hits_F00F, decide_eq_true_eq, encode, encodeXY_toNat x y (by omega)]
  change _ = 0x8000
  omega

theorem or (x y : Reg) : Statement (.or x y) := by
  intro _
  have hx := x.isLt
  have hy := y.isLt
  refine ⟨⟨"OR", 0x8001, 0xF00F⟩, by decide, rfl, ?_⟩
  rw [hits_F00F, decide_eq_true_eq, encode, encodeXY_toNat x y (by omega)]
  change _ = 0x8001
  omega

theorem and (x y : Reg) : Statement (.and x y) := by
  intro _
  have hx := x.isLt
  have hy := y.isLt
  refine ⟨⟨"AND", 0x8002, 0xF00F⟩, by decide, rfl, ?_⟩
  rw [hits_F00F, decide_eq_true_eq, encode, encodeXY_toNat x y (by omega)]
  change _ = 0x8002
  omega

theorem xor (x y : Reg) : Statement (.xor x y) := by
  intro _
  have hx := x.isLt
  have hy := y.isLt
  refine ⟨⟨"XOR", 0x8003, 0xF00F⟩, by decide, rfl, ?_⟩
  rw [hits_F00F, decide_eq_true_eq, encode, encodeXY_toNat x y (by omega)]
  change _ = 0x8003
  omega

theorem addReg (x y : Reg) : Statement (.addReg x y) := by
  intro _
  have hx := x.isLt
  have hy := y.isLt
  refine ⟨⟨"ADD_REG", 0x8004, 0xF00F⟩, by decide, rfl, ?_⟩
  rw [hits_F00F, decide_eq_true_eq, encode, encodeXY_toNat x y (by omega)]
  change _ = 0x8004
  omega

theorem sub (x y : Reg) : Statement (.sub x y) := by
  intro _
  have hx := x.isLt
  have hy := y.isLt
  refine ⟨⟨"SUB", 0x8005, 0xF00F⟩, by decide, rfl, ?_⟩
  rw [hits_F00F, decide_eq_true_eq, encode, encodeXY_toNat x y (by omega)]
  change _ = 0x8005
  omega

theorem shr (x y : Reg) : Statement (.shr x y) := by
  intro _
  have hx := x.isLt
  have hy := y.isLt
  refine ⟨⟨"SHR", 0x8006, 0xF00F⟩, by decide, rfl, ?_⟩
  rw [hits_F00F, decide_eq_true_eq, encode, encodeXY_toNat x y (by omega)]
  change _ = 0x8006
  omega

theorem subn (x y : Reg) : Statement (.subn x y) := by
  intro _
  have hx := x.isLt
  have hy := y.isLt
  refine ⟨⟨"SUBN", 0x8007, 0xF00F⟩, by decide, rfl, ?_⟩
  rw [hits_F00F, decide_eq_true_eq, encode, encodeXY_toNat x y (by omega)]
  change _ = 0x8007
  omega

theorem shl (x y : Reg) : Statement (.shl x y) := by
  intro _
  have hx := x.isLt
  have hy := y.isLt
  refine ⟨⟨"SHL", 0x800E, 0xF00F⟩, by decide, rfl, ?_⟩
  rw [hits_F00F, decide_eq_true_eq, encode, encodeXY_toNat x y (by omega)]
  change _ = 0x800E
  omega

theorem sneReg (x y : Reg) : Statement (.sneReg x y) := by
  intro _
  have hx := x.isLt
  have hy := y.isLt
  refine ⟨⟨"SNE_REG", 0x9000, 0xF00F⟩, by decide, rfl, ?_⟩
  rw [hits_F00F, decide_eq_true_eq, encode, encodeXY_toNat x y (by omega)]
  change _ = 0x9000
  omega

theorem ldI (nnn : Word) : Statement (.ldI nnn) := by
  intro h
  have hn : nnn.toNat < 4096 := by simpa [Instr.wf, addressFits] using h
  refine ⟨⟨"LD_I", 0xA000, 0xF000⟩, by decide, rfl, ?_⟩
  rw [hits_F000, decide_eq_true_eq, encode, encodeNNN_toNat hn (by omega)]
  change _ = 0xA000
  omega

theorem jpV0 (nnn : Word) : Statement (.jpV0 nnn) := by
  intro h
  have hn : nnn.toNat < 4096 := by simpa [Instr.wf, addressFits] using h
  refine ⟨⟨"JP_V0", 0xB000, 0xF000⟩, by decide, rfl, ?_⟩
  rw [hits_F000, decide_eq_true_eq, encode, encodeNNN_toNat hn (by omega)]
  change _ = 0xB000
  omega

theorem rnd (x : Reg) (nn : Byte) : Statement (.rnd x nn) := by
  intro _
  have hx := x.isLt
  have hn := nn.isLt
  refine ⟨⟨"RND", 0xC000, 0xF000⟩, by decide, rfl, ?_⟩
  rw [hits_F000, decide_eq_true_eq, encode, encodeXNN_toNat x nn (by omega)]
  change _ = 0xC000
  omega

theorem drw (x y : Reg) (n : Nat) : Statement (.drw x y n) := by
  intro h
  have hx := x.isLt
  have hy := y.isLt
  have hn : n < 16 := by simpa [Instr.wf, countFits] using h
  refine ⟨⟨"DRW", 0xD000, 0xF000⟩, by decide, rfl, ?_⟩
  rw [hits_F000, decide_eq_true_eq, encode, encodeXYN_toNat x y hn (by omega)]
  change _ = 0xD000
  omega

theorem skp (x : Reg) : Statement (.skp x) := by
  intro _
  have hx := x.isLt
  refine ⟨⟨"SKP", 0xE09E, 0xF0FF⟩, by decide, rfl, ?_⟩
  rw [hits_F0FF, decide_eq_true_eq, encode, encodeX_toNat x (by omega)]
  change _ = 0xE09E
  omega

theorem sknp (x : Reg) : Statement (.sknp x) := by
  intro _
  have hx := x.isLt
  refine ⟨⟨"SKNP", 0xE0A1, 0xF0FF⟩, by decide, rfl, ?_⟩
  rw [hits_F0FF, decide_eq_true_eq, encode, encodeX_toNat x (by omega)]
  change _ = 0xE0A1
  omega

theorem ldVxDt (x : Reg) : Statement (.ldVxDt x) := by
  intro _
  have hx := x.isLt
  refine ⟨⟨"LD_VX_DT", 0xF007, 0xF0FF⟩, by decide, rfl, ?_⟩
  rw [hits_F0FF, decide_eq_true_eq, encode, encodeX_toNat x (by omega)]
  change _ = 0xF007
  omega

theorem ldVxK (x : Reg) : Statement (.ldVxK x) := by
  intro _
  have hx := x.isLt
  refine ⟨⟨"LD_VX_K", 0xF00A, 0xF0FF⟩, by decide, rfl, ?_⟩
  rw [hits_F0FF, decide_eq_true_eq, encode, encodeX_toNat x (by omega)]
  change _ = 0xF00A
  omega

theorem ldDtVx (x : Reg) : Statement (.ldDtVx x) := by
  intro _
  have hx := x.isLt
  refine ⟨⟨"LD_DT_VX", 0xF015, 0xF0FF⟩, by decide, rfl, ?_⟩
  rw [hits_F0FF, decide_eq_true_eq, encode, encodeX_toNat x (by omega)]
  change _ = 0xF015
  omega

theorem ldStVx (x : Reg) : Statement (.ldStVx x) := by
  intro _
  have hx := x.isLt
  refine ⟨⟨"LD_ST_VX", 0xF018, 0xF0FF⟩, by decide, rfl, ?_⟩
  rw [hits_F0FF, decide_eq_true_eq, encode, encodeX_toNat x (by omega)]
  change _ = 0xF018
  omega

theorem addI (x : Reg) : Statement (.addI x) := by
  intro _
  have hx := x.isLt
  refine ⟨⟨"ADD_I", 0xF01E, 0xF0FF⟩, by decide, rfl, ?_⟩
  rw [hits_F0FF, decide_eq_true_eq, encode, encodeX_toNat x (by omega)]
  change _ = 0xF01E
  omega

theorem ldF (x : Reg) : Statement (.ldF x) := by
  intro _
  have hx := x.isLt
  refine ⟨⟨"LD_F", 0xF029, 0xF0FF⟩, by decide, rfl, ?_⟩
  rw [hits_F0FF, decide_eq_true_eq, encode, encodeX_toNat x (by omega)]
  change _ = 0xF029
  omega

theorem ldB (x : Reg) : Statement (.ldB x) := by
  intro _
  have hx := x.isLt
  refine ⟨⟨"LD_B", 0xF033, 0xF0FF⟩, by decide, rfl, ?_⟩
  rw [hits_F0FF, decide_eq_true_eq, encode, encodeX_toNat x (by omega)]
  change _ = 0xF033
  omega

theorem stRegs (x : Reg) : Statement (.stRegs x) := by
  intro _
  have hx := x.isLt
  refine ⟨⟨"ST_REGS", 0xF055, 0xF0FF⟩, by decide, rfl, ?_⟩
  rw [hits_F0FF, decide_eq_true_eq, encode, encodeX_toNat x (by omega)]
  change _ = 0xF055
  omega

theorem ldRegs (x : Reg) : Statement (.ldRegs x) := by
  intro _
  have hx := x.isLt
  refine ⟨⟨"LD_REGS", 0xF065, 0xF0FF⟩, by decide, rfl, ?_⟩
  rw [hits_F0FF, decide_eq_true_eq, encode, encodeX_toNat x (by omega)]
  change _ = 0xF065
  omega

end Sys2Proof.Laws.RowOfWord
end

