-- ==== Sys2Proof/Tests/Slice0.lean ====
section
/-! SUPPORT. Own tests. Expected values are the spec's: the encodings of 30_encoding.md, the examples of the instruction
rules, and the vectors of 95_test_vectors.md (named in each comment). Then a witness for every statement's premises. -/

namespace Sys2Proof.Tests

open Sys2Proof.Machine

/-- What a test looks at in the next state. -/
def after {α : Type} (o : Host.Outcome State Fault Refusal) (f : State → α) : Option α :=
  match o with
  | .next t => some (f t)
  | .fault _ => none
  | .refused _ => none

/-- One step that runs the word `w` placed at PC. -/
def run1 {α : Type} (s : State) (w : Nat) (f : State → α) : Option α := after (step (s.withFetchWord 16 w)) f

/-- The reset state with some V registers set. -/
def regs (vs : List (Reg × Byte)) : State := vs.foldl (fun s p => s.setV p.1 p.2) State.reset

/-- The reset state with bytes stored in memory. -/
def memAt (s : State) (a : Nat) (bs : List Byte) : State := s.storeBytes a bs

/-! ## Well-formedness: one ill-formed term for each check, and the bounds it accepts -/

theorem test_wf_refuses_jp : (Instr.jp 0x1000).wf = false := by decide
theorem test_wf_refuses_call : (Instr.call 0x1000).wf = false := by decide
theorem test_wf_refuses_ldI : (Instr.ldI 0xFFFF).wf = false := by decide
theorem test_wf_refuses_jpV0 : (Instr.jpV0 0x1000).wf = false := by decide
theorem test_wf_refuses_drw : (Instr.drw 0 0 16).wf = false := by decide
theorem test_wf_accepts_bounds : (Instr.jp 0xFFF).wf = true ∧ (Instr.drw 15 15 15).wf = true := by decide

/-! ## Decoding: every row of R94 by a word written out from its bits -/

theorem test_decode_cls : decodeWord 0b0000000011100000 = .instr .cls := by decide
theorem test_decode_ret : decodeWord 0b0000000011101110 = .instr .ret := by decide
theorem test_decode_jp : decodeWord 0b0001_001000001100 = .instr (.jp 0x20C) := by decide
theorem test_decode_call : decodeWord 0b0010_001000010000 = .instr (.call 0x210) := by decide
theorem test_decode_seImm : decodeWord 0b0011_0011_00000111 = .instr (.seImm 3 0x07) := by decide
theorem test_decode_sneImm : decodeWord 0b0100_0011_00000111 = .instr (.sneImm 3 0x07) := by decide
theorem test_decode_seReg : decodeWord 0b0101_0001_0010_0000 = .instr (.seReg 1 2) := by decide
theorem test_decode_ldImm : decodeWord 0b0110_0101_00101010 = .instr (.ldImm 5 0x2A) := by decide
theorem test_decode_addImm : decodeWord 0b0111_0010_00000011 = .instr (.addImm 2 3) := by decide
theorem test_decode_ldReg : decodeWord 0b1000_0000_0001_0000 = .instr (.ldReg 0 1) := by decide
theorem test_decode_or : decodeWord 0b1000_0000_0001_0001 = .instr (.or 0 1) := by decide
theorem test_decode_and : decodeWord 0b1000_0000_0001_0010 = .instr (.and 0 1) := by decide
theorem test_decode_xor : decodeWord 0b1000_0000_0001_0011 = .instr (.xor 0 1) := by decide
theorem test_decode_addReg : decodeWord 0b1000_1111_0001_0100 = .instr (.addReg 15 1) := by decide
theorem test_decode_sub : decodeWord 0b1000_0000_0001_0101 = .instr (.sub 0 1) := by decide
theorem test_decode_shr : decodeWord 0b1000_0100_1010_0110 = .instr (.shr 4 10) := by decide
theorem test_decode_subn : decodeWord 0b1000_0000_0001_0111 = .instr (.subn 0 1) := by decide
theorem test_decode_shl : decodeWord 0b1000_0100_0000_1110 = .instr (.shl 4 0) := by decide
theorem test_decode_sneReg : decodeWord 0b1001_0001_0010_0000 = .instr (.sneReg 1 2) := by decide
theorem test_decode_ldI : decodeWord 0b1010_001100000000 = .instr (.ldI 0x300) := by decide
theorem test_decode_jpV0 : decodeWord 0b1011_111111111111 = .instr (.jpV0 0xFFF) := by decide
theorem test_decode_rnd : decodeWord 0b1100_0000_00001111 = .instr (.rnd 0 0x0F) := by decide
theorem test_decode_drw : decodeWord 0b1101_0001_0010_0101 = .instr (.drw 1 2 5) := by decide
theorem test_decode_skp : decodeWord 0b1110_0001_10011110 = .instr (.skp 1) := by decide
theorem test_decode_sknp : decodeWord 0b1110_0001_10100001 = .instr (.sknp 1) := by decide
theorem test_decode_ldVxDt : decodeWord 0b1111_0011_00000111 = .instr (.ldVxDt 3) := by decide
theorem test_decode_ldVxK : decodeWord 0b1111_0011_00001010 = .instr (.ldVxK 3) := by decide
theorem test_decode_ldDtVx : decodeWord 0b1111_0101_00010101 = .instr (.ldDtVx 5) := by decide
theorem test_decode_ldStVx : decodeWord 0b1111_0001_00011000 = .instr (.ldStVx 1) := by decide
theorem test_decode_addI : decodeWord 0b1111_0010_00011110 = .instr (.addI 2) := by decide
theorem test_decode_ldF : decodeWord 0b1111_1010_00101001 = .instr (.ldF 10) := by decide
theorem test_decode_ldB : decodeWord 0b1111_1010_00110011 = .instr (.ldB 10) := by decide
theorem test_decode_stRegs : decodeWord 0b1111_0010_01010101 = .instr (.stRegs 2) := by decide
theorem test_decode_ldRegs : decodeWord 0b1111_0010_01100101 = .instr (.ldRegs 2) := by decide

/-- P6's program and its ROM bytes. -/
theorem test_assemble : assemble [.instr (.ldI 0x20A), .instr (.ldImm 0 0x12), .instr (.ldImm 1 0x0C),
    .instr (.stRegs 1), .instr (.ldImm 2 0x05), .db [0, 0], .instr (.jp 0x20C)] =
    [0xA2, 0x0A, 0x60, 0x12, 0x61, 0x0C, 0xF1, 0x55, 0x62, 0x05, 0x00, 0x00, 0x12, 0x0C] := by decide
/-- The syntax of P4's third line. -/
theorem test_asm : (Instr.ldVxK 3).asm = "LD V3, K" ∧ (Instr.drw 1 2 5).asm = "DRW V1, V2, 5" := by decide
/-- V-CY-7. -/
theorem test_decode_illegal : ∀ w ∈ [0x5121, 0x9125, 0x800F, 0x8008, 0xE09F, 0xF000, 0xF0FF, 0x0123, 0x00E1],
    decodeWord (BitVec.ofNat 16 w) = .unknownOpcode (BitVec.ofNat 16 w) := by decide

/-- The bytes are big-endian (R64): 60 2A is LD V0, 0x2A, and what follows stays. -/
theorem test_decode_bytes : decodeBytes [0x60, 0x2A, 0x12] = .word (.instr (.ldImm 0 0x2A)) [0x12] := by decide
theorem test_decode_truncated : decodeBytes [0x60] = .truncated := by decide
theorem test_decode_table_word : decodeTableWord 16 0xFA33 = some (.ldB 10) := by decide

/-! ## ALU -/

/-- V-A-1. -/
theorem test_ldImm_vf : run1 State.reset 0x6F12 (fun t => (t.getV 15, t.pc)) = some (0x12, 0x202) := by decide
/-- R201's example: wraps, VF unchanged. -/
theorem test_addImm_wraps : run1 (regs [(2, 0xFE), (15, 7)]) 0x7203 (fun t => (t.getV 2, t.getV 15)) = some (1, 7) := by
  decide
/-- V-A-3. -/
theorem test_addImm_vf : run1 (regs [(15, 0xFF)]) 0x7F01 (fun t => t.getV 15) = some 0 := by decide
/-- V-A-4. -/
theorem test_ldReg : run1 (regs [(1, 0x33)]) 0x8010 (fun t => (t.getV 0, t.getV 1)) = some (0x33, 0x33) := by decide
/-- V-A-5. -/
theorem test_or : run1 (regs [(0, 0x0C), (1, 0x0A), (15, 5)]) 0x8011 (fun t => (t.getV 0, t.getV 15)) = some (0x0E, 5) := by
  decide
theorem test_and : run1 (regs [(0, 0x0C), (1, 0x0A), (15, 5)]) 0x8012 (fun t => (t.getV 0, t.getV 15)) = some (0x08, 5) := by
  decide
theorem test_xor : run1 (regs [(0, 0x0C), (1, 0x0A), (15, 5)]) 0x8013 (fun t => (t.getV 0, t.getV 15)) = some (0x06, 5) := by
  decide
/-- V-A-8. -/
theorem test_addReg_carry : run1 (regs [(0, 0x80), (1, 0x80)]) 0x8014 (fun t => (t.getV 0, t.getV 15)) = some (0, 1) := by
  decide
/-- V-A-10: the flag wins over the sum. -/
theorem test_addReg_vf : run1 (regs [(15, 0xFF), (1, 2)]) 0x8F14 (fun t => t.getV 15) = some 1 := by decide
/-- L1-3. -/
theorem test_sub_borrow : run1 (regs [(0, 3), (1, 5)]) 0x8015 (fun t => (t.getV 0, t.getV 15)) = some (0xFE, 1) := by decide
/-- V-A-12, under `canonical`. -/
theorem test_sub_canonical :
    run1 { regs [(0, 7), (1, 7)] with cfg := { Config.default with borrow := .canonical } } 0x8015
      (fun t => (t.getV 0, t.getV 15)) = some (0, 1) := by decide
/-- V-A-17: Vy is not read. -/
theorem test_shr_ignores_y : run1 (regs [(0, 4), (1, 0xFF)]) 0x8016 (fun t => (t.getV 0, t.getV 15)) = some (2, 0) := by
  decide
/-- V-A-18. -/
theorem test_shr_vf : run1 (regs [(15, 3)]) 0x8F06 (fun t => t.getV 15) = some 1 := by decide
/-- V-A-19. -/
theorem test_subn_borrow : run1 (regs [(0, 5), (1, 3)]) 0x8017 (fun t => (t.getV 0, t.getV 15)) = some (0xFE, 1) := by decide
/-- V-A-20. -/
theorem test_subn : run1 (regs [(0, 3), (1, 5)]) 0x8017 (fun t => (t.getV 0, t.getV 15)) = some (2, 0) := by decide
/-- R210's example. -/
theorem test_shl : run1 (regs [(4, 0x81)]) 0x840E (fun t => (t.getV 4, t.getV 15)) = some (2, 1) := by decide
/-- V-A-22. -/
theorem test_shl_vf : run1 (regs [(15, 0x80)]) 0x8F0E (fun t => t.getV 15) = some 1 := by decide
/-- R211: nn = 0 gives 0 whatever the draw, and one draw is made. -/
theorem test_rnd_masked : run1 (regs [(0, 9)]) 0xC00F
    (fun t => (t.getV 0, t.env.draws)) = some (Config.randomByte 0 &&& 0x0F, 1) := rfl

/-! ## Flow -/

/-- V-F-2. -/
theorem test_ret : run1 { State.reset with stack := [0x204], pc := 0x30A } 0x00EE (fun t => (t.stack, t.pc)) =
    some ([], 0x206) := by decide
/-- V-F-1: the latched record, and PC stays. -/
theorem test_ret_empty : run1 State.reset 0x00EE (fun t => (t.fault, t.pc)) =
    some (some ⟨.stackUnderflow, 0x00EE, 0x200⟩, 0x200) := by decide
/-- V-F-3. -/
theorem test_jp : run1 State.reset 0x1ABC (fun t => t.pc) = some 0xABC := by decide
/-- V-F-5. -/
theorem test_call : run1 { State.reset with stack := List.replicate 15 0x300 } 0x2400
    (fun t => (t.stack.length, t.stack.getLast?, t.pc)) = some (16, some 0x200, 0x400) := by decide
/-- V-F-6. -/
theorem test_call_full : run1 { State.reset with stack := List.replicate 16 0x300 } 0x2400
    (fun t => (t.stack.length, t.fault, t.pc)) = some (16, some ⟨.stackOverflow, 0x2400, 0x200⟩, 0x200) := by decide
/-- V-F-7. -/
theorem test_seImm : run1 { regs [(3, 7)] with pc := 0x208 } 0x3307 (fun t => t.pc) = some 0x20C := by decide
theorem test_seImm_not : run1 { regs [(3, 7)] with pc := 0x208 } 0x3308 (fun t => t.pc) = some 0x20A := by decide
/-- V-F-8. -/
theorem test_sneImm : run1 { regs [(3, 7)] with pc := 0x208 } 0x4308 (fun t => t.pc) = some 0x20C := by decide
/-- V-F-9. -/
theorem test_seReg : run1 (regs [(1, 0x10), (2, 0x10)]) 0x5120 (fun t => t.pc) = some 0x204 := by decide
/-- R176's example. -/
theorem test_sneReg : run1 (regs [(1, 0x10), (2, 0x11)]) 0x9120 (fun t => t.pc) = some 0x204 := by decide
/-- V-F-11: not masked to 12 bits. -/
theorem test_jpV0 : run1 (regs [(0, 0xFF)]) 0xBFFF (fun t => t.pc) = some 0x10FE := by decide

/-! ## Index and memory -/

/-- V-M-1. -/
theorem test_ldI : run1 State.reset 0xAFFF (fun t => t.i) = some 0xFFF := by decide
/-- V-M-4. -/
theorem test_addI_wraps : run1 { regs [(0, 0xFF)] with i := 0xF80 } 0xF01E (fun t => (t.i, t.getV 15)) =
    some (0x07F, 1) := by decide
/-- V-M-5: x = F. -/
theorem test_addI_vf : run1 { regs [(15, 0x20)] with i := 0x100 } 0xFF1E (fun t => (t.i, t.getV 15)) =
    some (0x120, 0) := by decide
/-- V-M-6. -/
theorem test_ldF : run1 (regs [(0, 0xFF)]) 0xF029 (fun t => t.i) = some 0x54B := by decide
/-- V-M-9: addresses wrap. -/
theorem test_ldB_wraps : run1 { regs [(0, 123)] with i := 0xFFF } 0xF033
    (fun t => (t.memRead 0xFFF, t.memRead 0, t.memRead 1, t.i)) = some (1, 2, 3, 0xFFF) := by decide
/-- V-M-10. -/
theorem test_stRegs : run1 { regs [(0, 0x11), (1, 0x22), (2, 0x33), (3, 0x44)] with i := 0x400 } 0xF255
    (fun t => (t.readBytes 0x400 4, t.i)) = some ([0x11, 0x22, 0x33, 0], 0x400) := by decide
/-- V-M-14: a store into the next instruction. -/
theorem test_stRegs_self : run1 { regs [(0, 0x12), (1, 0x08)] with i := 0x202 } 0xF155 (fun t => t.fetch) =
    some 0x1208 := by decide
/-- V-M-12. -/
theorem test_ldRegs : run1 { memAt (regs [(3, 9)]) 0x300 [1, 2, 3, 4] with i := 0x300 } 0xF265
    (fun t => (t.getV 0, t.getV 1, t.getV 2, t.getV 3, t.i)) = some (1, 2, 3, 9, 0x300) := by decide

/-! ## Display -/

/-- V-D-1. -/
theorem test_cls : run1 { regs [(15, 7)] with fb := State.reset.fb.toggle 3 4 } 0x00E0
    (fun t => (t.fb.pixel 3 4, t.dirty, t.getV 15)) = some (false, true, 7) := by decide
/-- V-D-2: clipping at the right edge, no wrap. -/
theorem test_drw_clips : run1 { memAt (regs [(0, 62)]) 0x300 [0xFF] with i := 0x300 } 0xD011
    (fun t => (t.fb.pixel 0 62, t.fb.pixel 0 63, t.fb.pixel 0 0, t.getV 15)) = some (true, true, false, 0) := by decide
/-- V-D-8 and its mirror: a set pixel collides only under a 1 bit. -/
theorem test_drw_collision : run1 { memAt State.reset 0x300 [0x80] with i := 0x300, fb := State.reset.fb.toggle 0 0 }
    0xD011 (fun t => (t.fb.pixel 0 0, t.fb.pixel 0 1, t.getV 15)) = some (false, false, 1) := by decide

/-! ## Keys and timers -/

/-- V-K-1. -/
theorem test_skp : run1 { regs [(1, 5)] with keys := State.reset.keys.set 5 true, pc := 0x210 } 0xE19E (fun t => t.pc) =
    some 0x214 := by decide
/-- V-K-3: a code from 16 up is never pressed. -/
theorem test_skp_big : run1 { regs [(1, 0x10)] with keys := Vector.replicate 16 true, pc := 0x210 } 0xE19E
    (fun t => t.pc) = some 0x212 := by decide
/-- V-K-1. -/
theorem test_sknp : run1 { regs [(1, 5)] with keys := State.reset.keys.set 5 true, pc := 0x210 } 0xE1A1 (fun t => t.pc) =
    some 0x212 := by decide
/-- V-K-5: DT as the pass of this tick left it. -/
theorem test_ldVxDt : run1 { State.reset with dt := 0x3D } 0xF307 (fun t => t.getV 3) = some 0x3C := by decide
/-- V-K-6: a held key does not satisfy Fx0A. -/
theorem test_ldVxK_blocks : run1 { State.reset with keys := State.reset.keys.set 7 true, pc := 0x220 } 0xF30A
    (fun t => (t.blocked, t.pc)) = some (true, 0x220) := by decide
/-- V-K-8. -/
theorem test_ldVxK_completes : run1 { State.reset with pendingUnblock := true, lastKey := some 7, pc := 0x220 } 0xF30A
    (fun t => (t.getV 3, t.pc, t.pendingUnblock, t.lastKey)) = some (7, 0x222, false, none) := by decide
/-- V-CY-10: DT is set after this tick's pass. -/
theorem test_ldDtVx : run1 { regs [(5, 0x33)] with dt := 9 } 0xF515 (fun t => t.dt) = some 0x33 := by decide
/-- V-K-14. -/
theorem test_ldStVx : run1 (regs [(0, 1)]) 0xF018 (fun t => (t.st, t.isSoundActive)) = some (1, true) := by decide

/-! ## The step and the host -/

/-- V-CY-3: fetch across the top of memory; PC is not masked. -/
theorem test_fetch_wraps : run1 { State.reset with pc := 0xFFF } 0x6209 (fun t => (t.getV 2, t.pc)) =
    some (9, 0x1001) := by decide
/-- V-CY-4: from reset with no program, the first tick latches UnknownOpcode. -/
theorem test_unknown : after (step State.reset) (fun t => (t.fault, t.pc, t.tickResult)) =
    some (some ⟨.unknownOpcode, 0, 0x200⟩, 0x200, .fault ⟨.unknownOpcode, 0, 0x200⟩) := by decide
/-- V-CY-8: timers and hooks. -/
theorem test_timers : run1 { State.reset with dt := 2, st := 1 } 0x6000 (fun t => (t.dt, t.st)) = some (1, 0) := by decide
theorem test_hooks : State.tickHooks { State.reset with dt := 2, st := 1 } = [.delay] := by decide
/-- V-CY-5: a faulted machine is frozen. -/
theorem test_frozen : after (step { State.reset with dt := 3, fault := some ⟨.unknownOpcode, 0, 0x200⟩ })
    (fun t => (t.dt, t.fault)) = some (3, some ⟨.unknownOpcode, 0, 0x200⟩) := by decide
/-- A program comes in by a load from power-on and its first instruction runs in the tick that follows (R351, P1). -/
theorem test_load_then_run :
    after (step (State.powerOn Config.default { draws := 0, inputs := [[.load [0x60, 0x05]]] }))
      (fun t => (t.loaded, t.getV 0, t.pc)) = some (true, 5, 0x202) := by decide
/-- P4, ticks 4 to 5: the key pressed while blocked resolves the wait. -/
theorem test_key_press :
    after (step { memAt State.reset 0x200 [0xF3, 0x0A] with
                  blocked := true, dt := 3, env := { draws := 0, inputs := [[.keyDown 7, .keyDown 9]] } })
      (fun t => (t.getV 3, t.dt, t.pc)) = some (7, 2, 0x202) := by decide
/-- R37: glyph A at 0x082. -/
theorem test_font : State.reset.readBytes 0x082 5 = [0xF0, 0x90, 0xF0, 0x90, 0x90] := by decide

/-! ## Witnesses: a state and operands that meet each statement's premises -/

/-- A state with memory written, a full register file and room on the stack. -/
def busy : State :=
  { memAt (regs [(0, 62), (1, 31), (2, 9), (15, 1)]) 0xFFF [0xFF, 0x81] with
    i := 0xFFF, stack := List.replicate 15 0x300, dt := 255, st := 1 }

/-- The machine waiting in Fx0A at 0x200 with keys and actions scheduled that do not end the wait. -/
def waiting : State :=
  { memAt State.reset 0x200 [0xF3, 0x0A] with
    blocked := true, dt := 2, st := 255, env := { draws := 0, inputs := [[.keyUp 4, .clearDirty], [.frame]] } }

theorem witness_DecodeOfEncode : (Instr.jp 0xFFF).wf = true ∧ (Instr.ldI 0).wf = true ∧ (Instr.drw 15 0 15).wf = true := by
  decide
theorem witness_EncodeOfDecode : decodeWord 0xDFFF = .instr (.drw 15 15 15) := by decide
theorem witness_DecoderFollowsOpcodeMap :
    decodeWord 0xF065 = .instr (.ldRegs 0) ∧ decodeWord 0xFFFF = .unknownOpcode 0xFFFF := by decide
theorem witness_AddRegistersWithCarry : (14 : Reg) ≠ regF := by decide
theorem witness_SubtractResults : (0 : Reg) ≠ regF ∧ busy.cfg.borrow = .source ∧
    ({ busy with cfg := { Config.default with borrow := .canonical } } : State).cfg.borrow = .canonical := by decide
theorem witness_ShiftResults : (0 : Reg) ≠ regF := by decide
theorem witness_JumpTargets : (0xFFF : Word).toNat < 0x1000 ∧ (0 : Word).toNat < 0x1000 := by decide
theorem witness_ImmediateSkips : busy.getV 0 = 62 ∧ busy.getV 0 ≠ 63 := by decide
theorem witness_RegisterSkips : busy.getV 3 = busy.getV 4 ∧ busy.getV 0 ≠ busy.getV 1 ∧ 0 < 1 ∧ 15 < 16 := by decide
theorem witness_CallAndReturnResults : busy.cfg.stackLimit ≠ some busy.stack.length ∧
    busy.stack = List.replicate 14 0x300 ++ [0x300] := by decide
theorem witness_CallThenReturnResumes : busy.cfg.stackLimit ≠ some busy.stack.length ∧
    ∃ t, exec (.call 0x400) busy = .next t ∧ ∃ u : State, u.stack = t.stack := ⟨by decide, _, rfl, _, rfl⟩
theorem witness_CallAndReturnFaults :
    ({ busy with stack := List.replicate 16 0 } : State).cfg.stackLimit = some (List.replicate 16 (0 : Word)).length ∧
    State.reset.stack = [] ∧
    ∃ t, exec (.call 0x400) { busy with cfg := { Config.default with stackLimit := none } } = .next t :=
  ⟨by decide, rfl, _, rfl⟩
theorem witness_IndexResults : (0xFFF : Word).toNat < 0x1000 := by decide
theorem witness_StoreDecimalDigits : busy.memOk = true ∧ busy.mem ≠ [] := by decide
theorem witness_RegisterBlockTransfers : busy.memOk = true ∧ (15 : Reg) ≤ 15 ∧ (0 : Reg) < 1 := by decide
theorem witness_StoreThenLoadBlockRestores : busy.memOk = true ∧
    ∃ t, exec (.stRegs 15) busy = .next t ∧ ∃ u : State, u.mem = t.mem ∧ u.cfg = t.cfg ∧ u.i = busy.i :=
  ⟨by decide, _, rfl, (busy.storeBytes busy.indexBase (busy.regBlock 15)).nextPc, rfl, rfl, by simp⟩
theorem witness_MemoryReadAfterWrite :
    busy.memOk = true ∧ effAddr 0x1000 = effAddr 0 ∧ effAddr 0xFFF ≠ effAddr 0 := by decide
theorem witness_AddressesWrap : (0x1200 : Word).toNat % 4096 = busy.pc.toNat % 4096 := by decide
theorem witness_FetchSeesStores : busy.memOk = true ∧
    State.byteAfterStore { busy with i := 0x202 } (busy.regBlock 1) 0x202 = 62 ∧
    State.byteAfterStore { busy with i := 0x202 } (busy.regBlock 1) 0x203 = 31 := by decide
/-- Boundary stores: one byte of the next word; PC = 0xFFE with I = 0; PC above 0xFFF; a store that misses. -/
theorem witness_FetchSeesStores_edges :
    State.byteAfterStore { busy with i := 0x203 } (busy.regBlock 0) 0x202 = 0 ∧
    State.byteAfterStore { busy with i := 0x203 } (busy.regBlock 0) 0x203 = 62 ∧
    State.byteAfterStore { busy with i := 0 } (bcdDigits 123) (0xFFE + 2) = 1 ∧
    State.byteAfterStore { busy with i := 0xFFF } (busy.regBlock 15) (0x100E + 3) = 0 ∧
    State.byteAfterStore { busy with i := 0x300 } (busy.regBlock 15) 0xFFF = 0xFF := by decide
theorem witness_DrawSpriteResult : busy.displayOk = true ∧ busy.spriteLit 0 1 15 31 63 = true ∧
    busy.fb.pixel 31 63 = false ∧ Framebuffer.pixel (busy.fb.toggle 31 63) 31 63 = true ∧
    ({ busy with fb := busy.fb.toggle 31 63 } : State).displayOk = true := by decide
theorem witness_DrawTwiceRestores : busy.displayOk = true ∧ (0 : Reg) ≠ regF ∧ (1 : Reg) ≠ regF ∧
    ∃ t, exec (.drw 0 1 1) busy = .next t ∧ ∃ u, exec (.drw 0 1 1) t = .next u :=
  ⟨by decide, by decide, by decide, _, rfl, _, rfl⟩
theorem witness_DrawTwiceRestores_clear :
    busy.spriteLit 0 1 15 31 63 = true ∧ ∀ r c, busy.spriteLit 0 1 15 r c = true → busy.fb.pixel r c = false :=
  ⟨by decide, fun r c _ => Framebuffer.pixel_blank 32 64 r c⟩
theorem witness_KeySkips :
    (∃ k : Key, k.val = ((regs [(1, 15)]).getV 1).toNat ∧ (Vector.replicate 16 true)[k] = true) ∧
    ¬ ∃ k : Key, k.val = ((regs [(1, 16)]).getV 1).toNat ∧ (Vector.replicate 16 true)[k] = true := by decide
theorem witness_TimerTransfers : busy.loaded = true := by decide
theorem witness_KeyWaitInstruction : busy.pendingUnblock = false ∧
    ({ busy with pendingUnblock := true, lastKey := some 15 } : State).pendingUnblock = true := by decide
theorem witness_KeyWaitHolds : waiting.loaded = true ∧ waiting.fault = none ∧ waiting.blocked = true ∧
    ∀ batch ∈ waiting.env.inputs, ∀ a ∈ batch, a.endsWait = false := by decide
/-- `waiting` with actions that do not end the wait, a first press, a second press and a release before the next tick. -/
def pressed : State := { waiting with env := { draws := 0, inputs := [[.keyUp 4, .clearDirty, .frame, .keyDown 3, .keyDown 9, .keyUp 3]] } }
theorem witness_KeyPressResolvesWait : pressed.loaded = true ∧ pressed.fault = none ∧ pressed.blocked = true ∧
    decodeWord pressed.fetch = .instr (.ldVxK 3) ∧
    pressed.env.inputs = ([.keyUp 4, .clearDirty, .frame] ++ .keyDown 3 :: [.keyDown 9, .keyUp 3]) :: [] ∧
    (∀ a ∈ [HostAction.keyUp 4, .clearDirty, .frame], a.endsWait = false) ∧
    ∀ a ∈ [HostAction.keyDown 9, .keyUp 3], a.isGoodLoad = false := by decide
theorem witness_TimerPassAndHooks : busy.loaded = true ∧ busy.fault = none := by decide
/-- `busy` about to run LD V0, V1. -/
def copying : State := busy.withFetchWord 16 0x8010
theorem witness_TimersDecay : copying.deliver.loaded = true ∧ copying.deliver.fault = none ∧
    (∀ a ∈ copying.nextBatch, a.isGoodLoad = false) ∧ decodeWord copying.deliver.fetch = .instr (.ldReg 0 1) ∧
    waiting.deliver.blocked = true := by decide
theorem witness_TimersDecay_step : ∃ t, step copying = .next t := ⟨_, rfl⟩
theorem witness_StepRunsDecodedInstruction : copying.deliver.running = true ∧
    decodeWord copying.deliver.fetch = .instr (.ldReg 0 1) := by decide
theorem witness_UnknownWordLatches : State.reset.deliver.running = true ∧
    opcodeMap.filter (fun r => r.hits State.reset.deliver.fetch) = [] := by decide
theorem witness_BlockedTickOnlyCountsDown :
    waiting.deliver.loaded = true ∧ waiting.deliver.fault = none ∧ waiting.deliver.blocked = true := by decide
theorem witness_FaultsArePrecise : State.reset.deliver.running = true ∧
    ∃ t, step State.reset = .next t ∧ t.fault = some ⟨.unknownOpcode, 0, 0x200⟩ := ⟨by decide, _, rfl, by decide⟩
/-- A faulted machine with host actions scheduled. -/
def faulted : State :=
  { State.reset with fault := some ⟨.unknownOpcode, 0, 0x200⟩, st := 2,
                     env := { draws := 0, inputs := [[.keyDown 4, .clearDirty]] } }
theorem witness_FaultStaysUntilLoad : faulted.fault = some ⟨.unknownOpcode, 0, 0x200⟩ ∧
    (∀ a ∈ faulted.nextBatch, a.isGoodLoad = false) ∧ (List.replicate 3584 (0 : Byte)).length ≤ 3584 :=
  ⟨by decide, by decide, by rw [List.length_replicate]⟩
theorem witness_FaultStaysUntilLoad_loaded : faulted.loaded = true ∧
    ({ faulted with loaded := false } : State).fault = some ⟨.unknownOpcode, 0, 0x200⟩ ∧
    ∀ a ∈ State.nextBatch { faulted with loaded := false }, a.isGoodLoad = false := by decide
theorem witness_SafeIffWellBehaved : copying.deliver.running = true ∧ State.reset.deliver.running = true := by decide
theorem witness_UnloadedDoesNothing :
    (State.powerOn Config.default { draws := 0, inputs := [[.keyDown 3]] }).loaded = false ∧
    ∀ a ∈ (State.powerOn Config.default { draws := 0, inputs := [[.keyDown 3]] }).nextBatch, a.isGoodLoad = false := by
  decide
theorem witness_KeyEvents : waiting.loaded = true ∧ waiting.blocked = true ∧ busy.loaded = true ∧ busy.blocked = false ∧
    (15 : Key) ≠ 0 := by decide
theorem witness_FrameAndSoundAreReads : busy.loaded = true := by decide
theorem witness_HostActionsTouchInputsOnly : (HostAction.keyDown 15).isGoodLoad = false ∧ busy.loaded = true ∧
    (HostAction.load (List.replicate 3585 0)).isGoodLoad = false :=
  ⟨by decide, by decide, by rw [HostAction.isGoodLoad, List.length_replicate]; decide⟩
theorem witness_LoadInstallsResetRecord : (List.replicate 3584 (0xFF : Byte)).length ≤ 3584 ∧ ([] : List Byte).length ≤ 3584 :=
  ⟨by rw [List.length_replicate], by decide⟩
theorem witness_OversizeLoadHasNoEffect : 3584 < (List.replicate 3585 (0 : Byte)).length := by
  rw [List.length_replicate]; decide
theorem witness_OnlyDestinationRegistersChange : ∃ t, exec (.addReg 0 1) busy = .next t := ⟨_, rfl⟩
theorem witness_OnlyStoresAndDrawsReachMemoryAndScreen : (∃ t, exec (.addReg 0 1) busy = .next t) ∧
    (∀ x, Instr.addReg 0 1 ≠ .ldB x) ∧ (∀ x, Instr.addReg 0 1 ≠ .stRegs x) ∧ Instr.addReg 0 1 ≠ .cls ∧
    ∀ x y n, Instr.addReg 0 1 ≠ .drw x y n := ⟨⟨_, rfl⟩, by simp⟩
theorem witness_EachStateHasItsWriters : (∃ t, exec (.drw 0 1 15) busy = .next t) ∧ (∀ n, Instr.drw 0 1 15 ≠ .ldI n) ∧
    (∀ x, Instr.drw 0 1 15 ≠ .addI x) ∧ (∀ x, Instr.drw 0 1 15 ≠ .ldF x) ∧ Instr.drw 0 1 15 ≠ .ret ∧
    (∀ n, Instr.drw 0 1 15 ≠ .call n) ∧ (∀ x, Instr.drw 0 1 15 ≠ .ldDtVx x) ∧ (∀ x, Instr.drw 0 1 15 ≠ .ldStVx x) ∧
    (∀ x, Instr.drw 0 1 15 ≠ .ldVxK x) ∧ ∀ x nn, Instr.drw 0 1 15 ≠ .rnd x nn := ⟨⟨_, rfl⟩, by simp⟩
theorem witness_WritesStayInRange : (Instr.addI 0).wf = true ∧ Instr.addI 0 ≠ .ret ∧ (∀ n, Instr.addI 0 ≠ .call n) ∧
    ∃ t, exec (.addI 0) busy = .next t ∧ t.i ≠ busy.i := ⟨rfl, by simp, by simp, _, rfl, by decide⟩
theorem witness_PcUpdateClasses : (∃ t, exec (.addReg 0 1) busy = .next t) ∧ pcClassOf (.addReg 0 1) = .next ∧
    (∃ t, exec (.seImm 0 62) busy = .next t) ∧ pcClassOf (.seImm 0 62) = .skip ∧
    (∃ t, exec (.ldVxK 3) busy = .next t) ∧ pcClassOf (.ldVxK 3) = .hold ∧ (∃ t, exec (.jp 0xFFF) busy = .next t) ∧
    (∃ t, exec (.jpV0 0xFFF) busy = .next t) ∧ (∃ t, exec (.call 0x400) busy = .next t) ∧
    ∃ t, exec .ret busy = .next t :=
  ⟨⟨_, rfl⟩, rfl, ⟨_, rfl⟩, rfl, ⟨_, rfl⟩, rfl, ⟨_, rfl⟩, ⟨_, rfl⟩, ⟨_, rfl⟩, ⟨_, rfl⟩⟩
theorem witness_KeysReachOnlyKeySkips : (∃ t, exec (.ldVxK 3) busy = .next t) ∧ (∀ x, Instr.ldVxK 3 ≠ .skp x) ∧
    ∀ x, Instr.ldVxK 3 ≠ .sknp x := ⟨⟨_, rfl⟩, by simp⟩
theorem witness_SoundTimerAndDirtyUnread : (∃ t, exec (.ldStVx 2) busy = .next t) ∧ ∃ t, exec .cls busy = .next t :=
  ⟨⟨_, rfl⟩, ⟨_, rfl⟩⟩
/-- `busy` about to run RND V0, 0xFF. -/
def drawing : State := busy.withFetchWord 16 0xC0FF
theorem witness_OneDrawPerRandom : drawing.deliver.running = true ∧
    decodeWord drawing.deliver.fetch = .instr (.rnd 0 0xFF) ∧ ∃ t, step drawing = .next t := ⟨by decide, by decide, _, rfl⟩
theorem witness_ParametersAndSchedule : waiting.loaded = true ∧ ∃ t, step waiting = .next t := ⟨by decide, _, rfl⟩
theorem witness_StepKeepsInvariant : busy.inv = true ∧ pressed.inv = true ∧ waiting.inv = true ∧ faulted.inv = true := by
  decide
theorem witness_StepKeepsInvariant_step : (∃ t, step copying = .next t) ∧ ∃ t, step pressed = .next t :=
  ⟨⟨_, rfl⟩, ⟨_, rfl⟩⟩

end Sys2Proof.Tests
end

section
/-! The execution cycle (40_cycle.md): a flag is written after the result (R127), and every write to I stays in its
range (R130). The flags as numbers, the writers of I and of the fault latch, then the two obligations. -/

namespace Sys2Proof.Machine

/-! ## Flags as numbers -/

theorem flagByte_decide (p : Prop) [Decidable p] : flagByte (decide p) = if p then 1 else 0 := by
  simp [flagByte]

theorem flagByte_toNat (c : Bool) : (flagByte c).toNat = c.toNat := by cases c <;> rfl

theorem flagByte_eq_zero_or_one (c : Bool) : flagByte c = 0 ∨ flagByte c = 1 := by
  cases c
  · exact .inl rfl
  · exact .inr rfl

theorem carryFlag_eq (a b : Byte) : carryFlag a b = if a.toNat + b.toNat > 255 then 1 else 0 :=
  flagByte_decide _

theorem shrFlag_toNat (a : Byte) : (shrFlag a).toNat = a.toNat % 2 := by
  rw [shrFlag, flagByte_toNat, BitVec.getLsbD, Nat.toNat_testBit, Nat.pow_zero, Nat.div_one]

theorem shlFlag_toNat (a : Byte) : (shlFlag a).toNat = a.toNat / 128 := by
  have := a.isLt
  rw [shlFlag, flagByte_toNat, BitVec.getLsbD, Nat.toNat_testBit]
  omega

theorem indexFlag_eq (i : Word) (b : Byte) : indexFlag i b = if i.toNat + b.toNat > 0xFFF then 1 else 0 :=
  flagByte_decide _

/-! ## The values written to I -/

theorem indexResult_toNat (i : Word) (b : Byte) : (indexResult i b).toNat = (i.toNat + b.toNat) % 0x1000 := by
  rw [indexResult, indexSum, BitVec.toNat_ofNat]
  omega

theorem indexResult_le (i : Word) (b : Byte) : (indexResult i b).toNat ≤ 0xFFF := by
  rw [indexResult_toNat]
  omega

theorem glyphAddress_toNat (b : Byte) : (glyphAddress b).toNat = 0x050 + 5 * b.toNat := by
  have := b.isLt
  rw [glyphAddress, fontBase, glyphBytes, BitVec.toNat_ofNat]
  omega

theorem glyphAddress_le (b : Byte) : (glyphAddress b).toNat ≤ 0xFFF := by
  have := b.isLt
  rw [glyphAddress_toNat]
  omega

theorem addressFits_iff (w : Word) : addressFits w = true ↔ w.toNat ≤ 0xFFF := by
  rw [addressFits, decide_eq_true_eq]
  omega

/-! ## Who writes what -/

/-- A write to VF alone leaves the other `V` registers as they are (R127: Fx1E and Dxyn). -/
theorem regsKept_nextPc_setV_regF {s u : State} (b : Byte) (hv : ∀ r, u.getV r = s.getV r) :
    RegsKept s (u.setV regF b).nextPc [regF] := fun r hr => by
  have hne : regF ≠ r := fun e => hr (by simp [e])
  rw [State.getV_nextPc, State.getV_setV_other u b hne, hv]

/-- What one instruction can do to I (R23): Annn, Fx1E and Fx29 are its writers. -/
theorem exec_index_cases {i : Instr} {s t : State} (h : exec i s = .next t) :
    t.i = s.i ∨ (∃ n, i = .ldI n ∧ t.i = n) ∨ (∃ x, i = .addI x ∧ t.i = indexResult s.i (s.getV x)) ∨
    (∃ x, i = .ldF x ∧ t.i = glyphAddress (s.getV x)) := by
  cases i with
  | ldI n => cases h; exact .inr (.inl ⟨n, rfl, rfl⟩)
  | addI x => cases h; exact .inr (.inr (.inl ⟨x, rfl, rfl⟩))
  | ldF x => cases h; exact .inr (.inr (.inr ⟨x, rfl, rfl⟩))
  | ret =>
    obtain ⟨-, he⟩ | ⟨_, _, -, he⟩ := exec_ret_cases s <;> (rw [he] at h; cases h; exact .inl rfl)
  | call n =>
    obtain ⟨-, he⟩ | ⟨-, he⟩ := exec_call_cases n s <;> (rw [he] at h; cases h; exact .inl rfl)
  | ldVxK x =>
    obtain ⟨-, he⟩ | ⟨-, he⟩ := exec_ldVxK_cases x s <;> (rw [he] at h; cases h; exact .inl rfl)
  | ldB _ | stRegs _ => cases h; exact .inl (State.storeBytes_i ..)
  | _ => cases h; exact .inl rfl

/-- Only RET and CALL can take a fault (R300: the other kind is raised by a word that does not decode). -/
theorem exec_keeps_fault {i : Instr} {s t : State} (h : exec i s = .next t) (hret : i ≠ .ret)
    (hcall : ∀ n, i ≠ .call n) : t.fault = s.fault := by
  cases i with
  | ret => exact absurd rfl hret
  | call n => exact absurd rfl (hcall n)
  | ldVxK x =>
    obtain ⟨-, he⟩ | ⟨-, he⟩ := exec_ldVxK_cases x s <;> (rw [he] at h; cases h; rfl)
  | ldB _ | stRegs _ => cases h; exact State.storeBytes_fault ..
  | _ => cases h; rfl

/-- Every write of a well-formed instruction to I is a 12-bit value (R130). -/
theorem exec_index_le {i : Instr} {s t : State} (hwf : i.wf = true) (h : exec i s = .next t) (hne : t.i ≠ s.i) :
    t.i.toNat ≤ 0xFFF := by
  obtain hkept | ⟨n, rfl, hi⟩ | ⟨x, rfl, hi⟩ | ⟨x, rfl, hi⟩ := exec_index_cases h
  · exact absurd hkept hne
  · exact hi ▸ (addressFits_iff n).mp hwf
  · exact hi ▸ indexResult_le _ _
  · exact hi ▸ glyphAddress_le _

/-! ## The obligations -/

/-- Settles O53: by the writers of I and of the fault latch; the bounds on V and PC are those of their widths. -/
theorem writesStayInRange : Obligations.WritesStayInRange := by
  intro i s t hwf h
  refine ⟨exec_index_le hwf h, fun r => ?_, t.pc.isLt, fun ⟨hret, hcall⟩ => exec_keeps_fault h hret hcall⟩
  have := (t.getV r).isLt
  omega

/-- Settles O10: with x = F what VF holds is the second write of `setVFlag`, the flag of the old operands; Fx1E and Dxyn
write no register but VF. -/
theorem flagIsWrittenLast : Obligations.FlagIsWrittenLast := by
  intro s y
  refine ⟨⟨_, rfl, ?add⟩, ⟨_, rfl, ?sub⟩, ⟨_, rfl, ?shr⟩, ⟨_, rfl, ?subn⟩, ⟨_, rfl, ?shl⟩,
    ⟨_, rfl, indexResult_toNat _ _, ?addI⟩, fun x => ⟨⟨_, rfl, regsKept_nextPc_setV_regF _ fun _ => rfl⟩,
      fun n => ⟨_, rfl, regsKept_nextPc_setV_regF _ fun _ => rfl, ?drw⟩⟩⟩
  case add => rw [State.getV_nextPc, State.getV_setVFlag_regF, carryFlag_eq]
  case sub => rw [State.getV_nextPc, State.getV_setVFlag_regF]
  case shr => rw [State.getV_nextPc, State.getV_setVFlag_regF, shrFlag_toNat]
  case subn => rw [State.getV_nextPc, State.getV_setVFlag_regF]
  case shl => rw [State.getV_nextPc, State.getV_setVFlag_regF, shlFlag_toNat]
  case addI => rw [State.getV_nextPc, State.getV_setV_same, indexFlag_eq]
  case drw => rw [State.getV_nextPc, State.getV_setV_same]; exact flagByte_eq_zero_or_one _

end Sys2Proof.Machine
end

section
/-! Display instructions (41_display.md): 00E0 clears the framebuffer (R150). -/

namespace Sys2Proof.Machine

/-- R150 as an equation: 00E0 always answers a next state, whatever the framebuffer held before. -/
theorem exec_cls (s : State) : exec .cls s =
    .next (State.nextPc { s with fb := Framebuffer.blank s.cfg.fbH s.cfg.fbW, dirty := true }) := rfl

/-- Settles O26: 00E0 puts in a blank matrix of the machine's size, which has its shape and every pixel 0; no other part of
the state is written but dirty and PC. -/
theorem clearScreenResult : Obligations.ClearScreenResult := by
  refine ⟨by decide, fun s => ⟨_, exec_cls s, ?pixels, ?shape, rfl, State.nextPc_pc _, ?regs, ?memory, rfl⟩⟩
  case pixels => exact Framebuffer.pixel_blank s.cfg.fbH s.cfg.fbW
  case shape => exact Framebuffer.blank_wf s.cfg.fbH s.cfg.fbW
  case regs => exact fun r _ => State.getV_nextPc _ r
  case memory => exact fun a => State.memRead_nextPc _ a

end Sys2Proof.Machine
end

section
/-! Control transfer and skips (42_flow.md): the fields of a word of format XNN, what a skip instruction answers, then the
obligation on 3xnn and 4xnn (R173, R174). -/

namespace Sys2Proof

/-! ## The fields of a word of format XNN (R91, R93): its `match` has only the primary selector set -/

theorem opT_encodeXNN {m : Nat} (x : Reg) (nn : Byte) (hm : m ≤ 0xF000) (hlow : m % 4096 = 0) :
    opT (encodeXNN m x nn) = m / 4096 := by
  have := x.isLt
  have := nn.isLt
  rw [opT, encodeXNN_toNat x nn hm]
  omega

theorem opX_encodeXNN {m : Nat} (x : Reg) (nn : Byte) (hm : m ≤ 0xF000) (hlow : m % 4096 = 0) :
    opX (encodeXNN m x nn) = x := by
  have := nn.isLt
  apply Fin.ext
  rw [opX_val, encodeXNN_toNat x nn hm]
  omega

theorem opNN_encodeXNN {m : Nat} (x : Reg) (nn : Byte) (hm : m ≤ 0xF000) (hlow : m % 4096 = 0) :
    opNN (encodeXNN m x nn) = nn := by
  have := nn.isLt
  apply BitVec.eq_of_toNat_eq
  rw [opNN_toNat, encodeXNN_toNat x nn hm]
  omega

theorem decodeWord_encode_seImm (x : Reg) (nn : Byte) : decodeWord (encode (.seImm x nn)) = .instr (.seImm x nn) := by
  have ht : opT (encodeXNN 0x3000 x nn) = 3 := opT_encodeXNN x nn (by decide) rfl
  simp only [encode, decodeWord, ht]
  rw [opX_encodeXNN x nn (by decide) rfl, opNN_encodeXNN x nn (by decide) rfl]

theorem decodeWord_encode_sneImm (x : Reg) (nn : Byte) :
    decodeWord (encode (.sneImm x nn)) = .instr (.sneImm x nn) := by
  have ht : opT (encodeXNN 0x4000 x nn) = 4 := opT_encodeXNN x nn (by decide) rfl
  simp only [encode, decodeWord, ht]
  rw [opX_encodeXNN x nn (by decide) rfl, opNN_encodeXNN x nn (by decide) rfl]

end Sys2Proof

namespace Sys2Proof.Machine

/-! ## Skips -/

theorem exec_seImm (x : Reg) (nn : Byte) (s : State) : exec (.seImm x nn) s = .next (s.skipPc (s.getV x == nn)) := rfl

theorem exec_sneImm (x : Reg) (nn : Byte) (s : State) : exec (.sneImm x nn) s = .next (s.skipPc (s.getV x != nn)) := rfl

/-- A skip writes PC alone (class SKIP of R125). -/
theorem onlyRegs_skipPc (s : State) (c : Bool) : OnlyRegs s (s.skipPc c) [] :=
  ⟨fun r _ => State.getV_skipPc s c r, State.memRead_skipPc s c, rfl⟩

/-- What an instruction of class SKIP answers (R125): `p` says when its condition `c` holds, `q` when it does not. -/
theorem exec_skip_result {i : Instr} {s : State} {c : Bool} {p q : Prop} (he : exec i s = .next (s.skipPc c))
    (hp : c = true ↔ p) (hq : c = false ↔ q) :
    ∃ t, exec i s = .next t ∧ OnlyRegs s t [] ∧ (p → t.pc = s.pc + 4) ∧ (q → t.pc = s.pc + 2) := by
  refine ⟨_, he, onlyRegs_skipPc s c, fun h => ?taken, fun h => ?notTaken⟩
  case taken => simp [hp.mpr h]
  case notTaken => simp [hq.mpr h]

/-! ## The obligation -/

/-- Settles O13: 3xnn and 4xnn are skips on the equality of V[x] and nn, and their words decode field by field. -/
theorem immediateSkips : Obligations.ImmediateSkips := fun s x nn =>
  ⟨⟨decodeWord_encode_seImm x nn, exec_skip_result (exec_seImm x nn s) beq_iff_eq beq_eq_false_iff_ne⟩,
   ⟨decodeWord_encode_sneImm x nn, exec_skip_result (exec_sneImm x nn s) bne_iff_ne bne_eq_false_iff_eq⟩⟩

end Sys2Proof.Machine
end

section
/-! Register ALU (43_alu.md): the words of its formats XNN and XY, what its results are as numbers, the frame of a write to
V[x] with and without a flag, then the obligations on 6xnn, 7xnn, 8xy0 (R200 to R202), 8xy4 (R206), 8xy6 and 8xyE (R208,
R210). -/

namespace Sys2Proof

/-! ## The fields of a word of format XY (R91, R93): its `match` has the primary selector and the low nibble set -/

theorem opT_encodeXY {m : Nat} (x y : Reg) (hm : m ≤ 0xF00F) (hlow : m % 4096 < 16) :
    opT (encodeXY m x y) = m / 4096 := by
  have := x.isLt
  have := y.isLt
  rw [opT, encodeXY_toNat x y hm]
  omega

theorem opX_encodeXY {m : Nat} (x y : Reg) (hm : m ≤ 0xF00F) (hlow : m % 4096 < 16) : opX (encodeXY m x y) = x := by
  have := y.isLt
  apply Fin.ext
  rw [opX_val, encodeXY_toNat x y hm]
  omega

theorem opY_encodeXY {m : Nat} (x y : Reg) (hm : m ≤ 0xF00F) (hlow : m % 4096 < 16) : opY (encodeXY m x y) = y := by
  apply Fin.ext
  rw [opY_val, encodeXY_toNat x y hm]
  omega

theorem opN_encodeXY {m : Nat} (x y : Reg) (hm : m ≤ 0xF00F) : opN (encodeXY m x y) = m % 16 := by
  rw [opN, encodeXY_toNat x y hm]
  omega

/-! ## Words of a row, given what the decoder answers on the row's selector -/

/-- A row of format XNN: `hrow` is what `decodeWord` answers on the row's primary selector (R94, R95). -/
theorem decodeWord_encodeXNN_of_row {m : Nat} {f : Reg → Byte → Instr} (x : Reg) (nn : Byte) (hm : m ≤ 0xF000)
    (hlow : m % 4096 = 0) (hrow : ∀ w, opT w = m / 4096 → decodeWord w = .instr (f (opX w) (opNN w))) :
    decodeWord (encodeXNN m x nn) = .instr (f x nn) := by
  rw [hrow _ (opT_encodeXNN x nn hm hlow), opX_encodeXNN x nn hm hlow, opNN_encodeXNN x nn hm hlow]

theorem decodeWord_of_opT_eight {w : Word} (h : opT w = 8) : decodeWord w = decode8 w := by
  simp only [decodeWord, h]

/-- A row of the sub-table `t = 8`: `hrow` is what `decode8` answers on the row's low nibble (R94, R95). -/
theorem decodeWord_encodeXY_of_row {m : Nat} {f : Reg → Reg → Instr} (x y : Reg) (hm : m / 16 = 0x800)
    (hrow : ∀ w, opN w = m % 16 → decode8 w = .instr (f (opX w) (opY w))) :
    decodeWord (encodeXY m x y) = .instr (f x y) := by
  have hle : m ≤ 0xF00F := by omega
  have hlow : m % 4096 < 16 := by omega
  have ht : opT (encodeXY m x y) = 8 := by
    rw [opT_encodeXY x y hle hlow]
    omega
  rw [decodeWord_of_opT_eight ht, hrow _ (opN_encodeXY x y hle), opX_encodeXY x y hle hlow, opY_encodeXY x y hle hlow]

theorem decodeWord_encode_ldImm (x : Reg) (nn : Byte) : decodeWord (encode (.ldImm x nn)) = .instr (.ldImm x nn) :=
  decodeWord_encodeXNN_of_row x nn (by decide) rfl fun w h => by simp only [decodeWord, h]

theorem decodeWord_encode_addImm (x : Reg) (nn : Byte) : decodeWord (encode (.addImm x nn)) = .instr (.addImm x nn) :=
  decodeWord_encodeXNN_of_row x nn (by decide) rfl fun w h => by simp only [decodeWord, h]

theorem decodeWord_encode_ldReg (x y : Reg) : decodeWord (encode (.ldReg x y)) = .instr (.ldReg x y) :=
  decodeWord_encodeXY_of_row x y rfl fun w h => by simp only [decode8, h]

theorem decodeWord_encode_addReg (x y : Reg) : decodeWord (encode (.addReg x y)) = .instr (.addReg x y) :=
  decodeWord_encodeXY_of_row x y rfl fun w h => by simp only [decode8, h]

theorem decodeWord_encode_shr (x y : Reg) : decodeWord (encode (.shr x y)) = .instr (.shr x y) :=
  decodeWord_encodeXY_of_row x y rfl fun w h => by simp only [decode8, h]

theorem decodeWord_encode_shl (x y : Reg) : decodeWord (encode (.shl x y)) = .instr (.shl x y) :=
  decodeWord_encodeXY_of_row x y rfl fun w h => by simp only [decode8, h]

end Sys2Proof

namespace Sys2Proof.Machine

/-! ## Results as numbers -/

theorem addResult_toNat (a b : Byte) : (addResult a b).toNat = (a.toNat + b.toNat) % 256 := by
  rw [addResult, sumOf, BitVec.toNat_ofNat]

theorem shrResult_toNat (a : Byte) : (shrResult a).toNat = a.toNat / 2 := by
  have := a.isLt
  rw [shrResult, BitVec.toNat_ofNat]
  omega

theorem shlResult_toNat (a : Byte) : (shlResult a).toNat = 2 * a.toNat % 256 := by
  rw [shlResult, BitVec.toNat_ofNat]

/-! ## A write to V[x], with and without a flag, then class NEXT (R125, R127) -/

/-- Without a flag V[x] alone is written, VF included when it is not the destination. -/
theorem onlyRegs_nextPc_setV (s : State) (x : Reg) (b : Byte) : OnlyRegs s (s.setV x b).nextPc [x] := by
  refine ⟨fun r hr => ?regs, State.memRead_setV s x b, rfl⟩
  case regs =>
    have hne : x ≠ r := fun e => hr (by simp [e])
    rw [State.getV_nextPc, State.getV_setV_other s b hne]

theorem onlyRegs_nextPc_setVFlag (s : State) (x : Reg) (r f : Byte) :
    OnlyRegs s (s.setVFlag x r f).nextPc [x, regF] := by
  refine ⟨fun q hq => ?regs, State.memRead_setVFlag s x r f, rfl⟩
  case regs =>
    simp only [List.mem_cons, List.not_mem_nil, or_false, not_or] at hq
    obtain ⟨hx, hF⟩ := hq
    rw [State.getV_nextPc, State.getV_setVFlag, if_neg (Ne.symm hF), if_neg (Ne.symm hx)]

/-- The destination holds the result unless it is VF, which holds the flag (R127). -/
theorem State.getV_setVFlag_dest (s : State) {x : Reg} (r f : Byte) (hx : x ≠ regF) :
    (s.setVFlag x r f).getV x = r := by
  rw [State.getV_setVFlag, if_neg hx.symm, if_pos rfl]

/-! ## The obligations -/

/-- Settles O5: each writes V[x] alone, 7xnn the wrapped sum, and its word decodes field by field. -/
theorem loadAndAddImmediateResults : Obligations.LoadAndAddImmediateResults := by
  intro s x y nn
  refine ⟨⟨decodeWord_encode_ldImm x nn, _, rfl, ?load, rfl, onlyRegs_nextPc_setV s x _⟩,
    ⟨decodeWord_encode_addImm x nn, _, rfl, ?add, rfl, onlyRegs_nextPc_setV s x _⟩,
    ⟨decodeWord_encode_ldReg x y, _, rfl, ?copy, rfl, onlyRegs_nextPc_setV s x _⟩⟩
  case load => rw [State.getV_nextPc, State.getV_setV_same]
  case add => rw [State.getV_nextPc, State.getV_setV_same, addResult_toNat]
  case copy => rw [State.getV_nextPc, State.getV_setV_same]

/-- Settles O7: the carry is the second write of `setVFlag`, so it is what VF holds even when x = F. -/
theorem addRegistersWithCarry : Obligations.AddRegistersWithCarry := by
  intro s x y
  refine ⟨decodeWord_encode_addReg x y, _, rfl, rfl, onlyRegs_nextPc_setVFlag s x _ _, fun hx => ?sum, ?carry⟩
  case sum => rw [State.getV_nextPc, State.getV_setVFlag_dest s _ _ hx, addResult_toNat]
  case carry => rw [State.getV_nextPc, State.getV_setVFlag_regF, carryFlag_eq]

/-- Settles O9: result and flag are functions of the old V[x] alone, and the flag is the bit shifted out. -/
theorem shiftResults : Obligations.ShiftResults := by
  intro s x y
  refine ⟨⟨decodeWord_encode_shr x y, _, rfl, rfl, onlyRegs_nextPc_setVFlag s x _ _, fun hx => ?half, ?lowBit⟩,
    ⟨decodeWord_encode_shl x y, _, rfl, rfl, onlyRegs_nextPc_setVFlag s x _ _, fun hx => ?double, ?highBit⟩⟩
  case half => rw [State.getV_nextPc, State.getV_setVFlag_dest s _ _ hx, shrResult_toNat]
  case lowBit => rw [State.getV_nextPc, State.getV_setVFlag_regF, shrFlag_toNat]
  case double => rw [State.getV_nextPc, State.getV_setVFlag_dest s _ _ hx, shlResult_toNat]
  case highBit => rw [State.getV_nextPc, State.getV_setVFlag_regF, shlFlag_toNat]

end Sys2Proof.Machine
end

section
/-! Index register (44_index_memory.md): the words of formats NNN and X, the frame of a write to I, then the obligation on
Annn, Fx1E and Fx29 (R240 to R242). -/

namespace Sys2Proof

/-! ## The fields of a word of format NNN (R91, R93): its `match` has only the primary selector set -/

theorem opT_encodeNNN {m : Nat} {nnn : Word} (hn : nnn.toNat < 4096) (hm : m ≤ 0xF000) (hlow : m % 4096 = 0) :
    opT (encodeNNN m nnn) = m / 4096 := by
  rw [opT, encodeNNN_toNat hn hm]
  omega

theorem opNNN_encodeNNN {m : Nat} {nnn : Word} (hn : nnn.toNat < 4096) (hm : m ≤ 0xF000) (hlow : m % 4096 = 0) :
    opNNN (encodeNNN m nnn) = nnn := by
  apply BitVec.eq_of_toNat_eq
  rw [opNNN_toNat, encodeNNN_toNat hn hm]
  omega

/-! ## The fields of a word of format X (R91, R93): its `match` has the primary selector and the low byte set -/

theorem opT_encodeX {m : Nat} (x : Reg) (hm : m ≤ 0xF0FF) (hlow : m % 4096 < 256) : opT (encodeX m x) = m / 4096 := by
  have := x.isLt
  rw [opT, encodeX_toNat x hm]
  omega

theorem opX_encodeX {m : Nat} (x : Reg) (hm : m ≤ 0xF0FF) (hlow : m % 4096 < 256) : opX (encodeX m x) = x := by
  apply Fin.ext
  rw [opX_val, encodeX_toNat x hm]
  omega

theorem opNN_encodeX {m : Nat} (x : Reg) (hm : m ≤ 0xF0FF) : (opNN (encodeX m x)).toNat = m % 256 := by
  rw [opNN_toNat, encodeX_toNat x hm]
  omega

/-! ## Words of a row, given what the decoder answers on the row's selector -/

/-- A row of format NNN: `hrow` is what `decodeWord` answers on the row's primary selector (R94, R95). -/
theorem decodeWord_encodeNNN_of_row {m : Nat} {f : Word → Instr} {nnn : Word} (hn : nnn.toNat < 4096) (hm : m ≤ 0xF000)
    (hlow : m % 4096 = 0) (hrow : ∀ w, opT w = m / 4096 → decodeWord w = .instr (f (opNNN w))) :
    decodeWord (encodeNNN m nnn) = .instr (f nnn) := by
  rw [hrow _ (opT_encodeNNN hn hm hlow), opNNN_encodeNNN hn hm hlow]

theorem decodeWord_of_opT_fifteen {w : Word} (h : opT w = 15) : decodeWord w = decodeF w := by
  simp only [decodeWord, h]

/-- A row of the sub-table `t = F`: `hrow` is what `decodeF` answers on the row's low byte (R94, R95). -/
theorem decodeWord_encodeX_of_row_F {m : Nat} {f : Reg → Instr} (x : Reg) (hm : m / 256 = 0xF0)
    (hrow : ∀ w, (opNN w).toNat = m % 256 → decodeF w = .instr (f (opX w))) :
    decodeWord (encodeX m x) = .instr (f x) := by
  have hle : m ≤ 0xF0FF := by omega
  have hlow : m % 4096 < 256 := by omega
  have ht : opT (encodeX m x) = 15 := by
    rw [opT_encodeX x hle hlow]
    omega
  rw [decodeWord_of_opT_fifteen ht, hrow _ (opNN_encodeX x hle), opX_encodeX x hle hlow]

theorem decodeWord_encode_ldI {nnn : Word} (hn : nnn.toNat < 4096) : decodeWord (encode (.ldI nnn)) = .instr (.ldI nnn) :=
  decodeWord_encodeNNN_of_row hn (by decide) rfl fun w h => by simp only [decodeWord, h]

theorem decodeWord_encode_addI (x : Reg) : decodeWord (encode (.addI x)) = .instr (.addI x) :=
  decodeWord_encodeX_of_row_F x rfl fun w h => by simp only [decodeF, h]

theorem decodeWord_encode_ldF (x : Reg) : decodeWord (encode (.ldF x)) = .instr (.ldF x) :=
  decodeWord_encodeX_of_row_F x rfl fun w h => by simp only [decodeF, h]

end Sys2Proof

namespace Sys2Proof.Machine

/-! ## A write to I, with and without a flag, then class NEXT (R125, R127) -/

theorem exec_ldI (nnn : Word) (s : State) : exec (.ldI nnn) s = .next (s.setI nnn).nextPc := rfl

theorem exec_addI (x : Reg) (s : State) : exec (.addI x) s =
    .next ((s.setI (indexResult s.i (s.getV x))).setV regF (indexFlag s.i (s.getV x))).nextPc := rfl

theorem exec_ldF (x : Reg) (s : State) : exec (.ldF x) s = .next (s.setI (glyphAddress (s.getV x))).nextPc := rfl

theorem regsKept_nextPc_setI (s : State) (w : Word) : RegsKept s (s.setI w).nextPc [] := fun r _ => by
  rw [State.getV_nextPc, State.getV_setI]

theorem memKept_nextPc_setI (s : State) (w : Word) : MemKept s (s.setI w).nextPc := fun a => by
  rw [State.memRead_nextPc, State.memRead_setI]

theorem memKept_nextPc_setV_setI (s : State) (w : Word) (x : Reg) (b : Byte) :
    MemKept s ((s.setI w).setV x b).nextPc := fun a => by
  rw [State.memRead_nextPc, State.memRead_setV, State.memRead_setI]

/-! ## The obligation -/

/-- Settles O18: each writes I and PC, and Fx1E also VF, whose flag is that of the old I and the old V[x], x = F included. -/
theorem indexResults : Obligations.IndexResults := by
  intro s x nnn
  refine ⟨⟨decodeWord_encode_ldI, _, exec_ldI nnn s, rfl, State.nextPc_pc _, regsKept_nextPc_setI s _,
      memKept_nextPc_setI s _, rfl⟩,
    ⟨decodeWord_encode_addI x, _, exec_addI x s, indexResult_toNat _ _, ?flag, State.nextPc_pc _,
      regsKept_nextPc_setV_regF _ (State.getV_setI s _), memKept_nextPc_setV_setI s _ _ _, rfl⟩,
    ⟨decodeWord_encode_ldF x, _, exec_ldF x s, glyphAddress_toNat _, State.nextPc_pc _, regsKept_nextPc_setI s _,
      memKept_nextPc_setI s _, rfl⟩⟩
  case flag => rw [State.getV_nextPc, State.getV_setV_same, indexFlag_eq]

end Sys2Proof.Machine
end

section
/-! Host interface (60_exceptions.md section 2): what the two reads `frame()` and `isSoundActive()` answer on a loaded
machine, then the obligation on them (R310, R315). -/

namespace Sys2Proof.Machine

theorem State.frame_of_loaded {s : State} (h : s.loaded = true) : s.frame = (s.fb, s.dirty) := by
  rw [State.frame, if_pos h]

theorem State.isSoundActive_iff_of_loaded {s : State} (h : s.loaded = true) :
    s.isSoundActive = true ↔ s.st.toNat ≠ 0 := by
  rw [State.isSoundActive, h, Bool.true_and, decide_eq_true_eq]
  exact BitVec.toNat_ne

theorem State.reply_frame_of_loaded {s : State} (h : s.loaded = true) : s.reply .frame = .frame s.fb s.dirty := by
  rw [State.reply, State.frame_of_loaded h]

/-! ## The obligation -/

/-- Settles O45: neither read has an effect in `State.act`, and on a loaded machine their answers are the machine's own
fields, not the blank ones of R353. -/
theorem frameAndSoundAreReads : Obligations.FrameAndSoundAreReads := by
  intro s h
  exact ⟨rfl, State.reply_frame_of_loaded h, rfl, s.isSoundActive, rfl, State.isSoundActive_iff_of_loaded h⟩

end Sys2Proof.Machine
end

section
/-! Reset (70_reset_and_hazards.md section 1): what `load` does with a ROM past the limit, as the counterpart of
`State.act_goodLoad`, then the obligation on it (R352). -/

namespace Sys2Proof.Machine

/-- A load past the limit leaves the whole machine as it was: no premise on `loaded` (R352). -/
theorem State.act_oversizeLoad (s : State) {rom : List Byte} (h : romMax < rom.length) : s.act (.load rom) = s := by
  rw [State.act, State.loadRom, if_neg (Nat.not_le.mpr h)]

theorem loadResult_of_oversize {rom : List Byte} (h : romMax < rom.length) : loadResult rom = .invalidRom :=
  if_neg (Nat.not_le.mpr h)

theorem State.reply_oversizeLoad (s : State) {rom : List Byte} (h : romMax < rom.length) :
    s.reply (.load rom) = .load .invalidRom := by
  rw [State.reply, loadResult_of_oversize h]

/-! ## The obligation -/

/-- Settles O48: `romMax` is 3584, and both the effect and the answer of a load test the length against it alone. -/
theorem oversizeLoadHasNoEffect : Obligations.OversizeLoadHasNoEffect := by
  intro s rom h
  have past : romMax < rom.length := h
  exact ⟨State.act_oversizeLoad s past, State.reply_oversizeLoad s past⟩

end Sys2Proof.Machine
end

section
/-! Encoding (30_encoding.md): the words of the remaining rows, the fields of a decoded word put back in place, the words
the decoder rejects, then the obligations that decoder, encoder and opcode map agree (R90 to R99). -/

namespace Sys2Proof

/-! ## The fields of a word of format XYN (R91, R93): its `match` has only the primary selector set -/

theorem opT_encodeXYN {m n : Nat} (x y : Reg) (hn : n < 16) (hm : m ≤ 0xF000) (hlow : m % 4096 = 0) :
    opT (encodeXYN m x y n) = m / 4096 := by
  have := x.isLt
  have := y.isLt
  rw [opT, encodeXYN_toNat x y hn hm]
  omega

theorem opX_encodeXYN {m n : Nat} (x y : Reg) (hn : n < 16) (hm : m ≤ 0xF000) (hlow : m % 4096 = 0) :
    opX (encodeXYN m x y n) = x := by
  have := y.isLt
  apply Fin.ext
  rw [opX_val, encodeXYN_toNat x y hn hm]
  omega

theorem opY_encodeXYN {m n : Nat} (x y : Reg) (hn : n < 16) (hm : m ≤ 0xF000) (hlow : m % 4096 = 0) :
    opY (encodeXYN m x y n) = y := by
  apply Fin.ext
  rw [opY_val, encodeXYN_toNat x y hn hm]
  omega

theorem opN_encodeXYN {m n : Nat} (x y : Reg) (hn : n < 16) (hm : m ≤ 0xF000) (hlow : m % 4096 = 0) :
    opN (encodeXYN m x y n) = n := by
  rw [opN, encodeXYN_toNat x y hn hm]
  omega

/-! ## Words of a row -/

/-- A row of format XY with its own primary selector (5xy0, 9xy0): `hrow` is what `decodeWord` answers on it (R94, R95). -/
theorem decodeWord_encodeXY_of_own_row {m : Nat} {f : Reg → Reg → Instr} (x y : Reg) (hm : m ≤ 0xF000)
    (hlow : m % 4096 = 0) (hrow : ∀ w, opT w = m / 4096 → opN w = 0 → decodeWord w = .instr (f (opX w) (opY w))) :
    decodeWord (encodeXY m x y) = .instr (f x y) := by
  have hle : m ≤ 0xF00F := by omega
  have hlt : m % 4096 < 16 := by omega
  have hn : opN (encodeXY m x y) = 0 := by
    rw [opN_encodeXY x y hle]
    omega
  rw [hrow _ (opT_encodeXY x y hle hlt) hn, opX_encodeXY x y hle hlt, opY_encodeXY x y hle hlt]

theorem decodeWord_of_opT_fourteen {w : Word} (h : opT w = 14) : decodeWord w = decodeE w := by
  simp only [decodeWord, h]

/-- A row of the sub-table `t = E`: `hrow` is what `decodeE` answers on the row's low byte (R94, R95). -/
theorem decodeWord_encodeX_of_row_E {m : Nat} {f : Reg → Instr} (x : Reg) (hm : m / 256 = 0xE0)
    (hrow : ∀ w, (opNN w).toNat = m % 256 → decodeE w = .instr (f (opX w))) :
    decodeWord (encodeX m x) = .instr (f x) := by
  have hle : m ≤ 0xF0FF := by omega
  have hlow : m % 4096 < 256 := by omega
  have ht : opT (encodeX m x) = 14 := by
    rw [opT_encodeX x hle hlow]
    omega
  rw [decodeWord_of_opT_fourteen ht, hrow _ (opNN_encodeX x hle), opX_encodeX x hle hlow]

theorem decodeWord_encode_jp {nnn : Word} (hn : nnn.toNat < 4096) : decodeWord (encode (.jp nnn)) = .instr (.jp nnn) :=
  decodeWord_encodeNNN_of_row hn (by decide) rfl fun w h => by simp only [decodeWord, h]

theorem decodeWord_encode_call {nnn : Word} (hn : nnn.toNat < 4096) :
    decodeWord (encode (.call nnn)) = .instr (.call nnn) :=
  decodeWord_encodeNNN_of_row hn (by decide) rfl fun w h => by simp only [decodeWord, h]

theorem decodeWord_encode_jpV0 {nnn : Word} (hn : nnn.toNat < 4096) :
    decodeWord (encode (.jpV0 nnn)) = .instr (.jpV0 nnn) :=
  decodeWord_encodeNNN_of_row hn (by decide) rfl fun w h => by simp only [decodeWord, h]

theorem decodeWord_encode_seReg (x y : Reg) : decodeWord (encode (.seReg x y)) = .instr (.seReg x y) :=
  decodeWord_encodeXY_of_own_row x y (by decide) rfl fun w h hn => by simp only [decodeWord, h, hn, if_true]

theorem decodeWord_encode_sneReg (x y : Reg) : decodeWord (encode (.sneReg x y)) = .instr (.sneReg x y) :=
  decodeWord_encodeXY_of_own_row x y (by decide) rfl fun w h hn => by simp only [decodeWord, h, hn, if_true]

theorem decodeWord_encode_drw (x y : Reg) {n : Nat} (hn : n < 16) :
    decodeWord (encode (.drw x y n)) = .instr (.drw x y n) := by
  have ht : opT (encodeXYN 0xD000 x y n) = 13 := opT_encodeXYN x y hn (by decide) rfl
  simp only [encode, decodeWord, ht]
  rw [opX_encodeXYN x y hn (by decide) rfl, opY_encodeXYN x y hn (by decide) rfl,
    opN_encodeXYN x y hn (by decide) rfl]

/-- Every 8xyN row goes through `decode8`, every ExNN row through `decodeE` and every FxNN row through `decodeF`. -/
theorem decodeWord_encode {i : Instr} (hwf : i.wf = true) : decodeWord (encode i) = .instr i := by
  cases i with
  | cls | ret => decide
  | jp nnn => exact decodeWord_encode_jp (of_decide_eq_true hwf)
  | call nnn => exact decodeWord_encode_call (of_decide_eq_true hwf)
  | ldI nnn => exact decodeWord_encode_ldI (of_decide_eq_true hwf)
  | jpV0 nnn => exact decodeWord_encode_jpV0 (of_decide_eq_true hwf)
  | seImm x nn => exact decodeWord_encode_seImm x nn
  | sneImm x nn => exact decodeWord_encode_sneImm x nn
  | ldImm x nn => exact decodeWord_encode_ldImm x nn
  | addImm x nn => exact decodeWord_encode_addImm x nn
  | rnd x nn =>
    exact decodeWord_encodeXNN_of_row x nn (by decide) rfl fun w h => by simp only [decodeWord, h]
  | seReg x y => exact decodeWord_encode_seReg x y
  | sneReg x y => exact decodeWord_encode_sneReg x y
  | drw x y n => exact decodeWord_encode_drw x y (of_decide_eq_true hwf)
  | ldReg x y | or x y | and x y | xor x y | addReg x y | sub x y | shr x y | subn x y | shl x y =>
    exact decodeWord_encodeXY_of_row x y rfl fun w h => by simp only [decode8, h]
  | skp x | sknp x => exact decodeWord_encodeX_of_row_E x rfl fun w h => by simp only [decodeE, h]
  | ldVxDt x | ldVxK x | ldDtVx x | ldStVx x | addI x | ldF x | ldB x | stRegs x | ldRegs x =>
    exact decodeWord_encodeX_of_row_F x rfl fun w h => by simp only [decodeF, h]

/-! ## The fields of a word put back in their places (R93) -/

theorem encodeNNN_fields {m : Nat} {op : Word} (hlow : m % 4096 = 0) (ht : opT op = m / 4096) :
    encodeNNN m (opNNN op) = op := by
  apply BitVec.eq_of_toNat_eq
  have := op.isLt
  rw [opT] at ht
  rw [encodeNNN_toNat (by rw [opNNN_toNat]; omega) (by omega), opNNN_toNat]
  omega

theorem encodeXNN_fields {m : Nat} {op : Word} (hlow : m % 4096 = 0) (ht : opT op = m / 4096) :
    encodeXNN m (opX op) (opNN op) = op := by
  apply BitVec.eq_of_toNat_eq
  have := op.isLt
  rw [opT] at ht
  rw [encodeXNN_toNat _ _ (by omega), opX_val, opNN_toNat]
  omega

theorem encodeXY_fields {m : Nat} {op : Word} (hlow : m % 4096 < 16) (ht : opT op = m / 4096) (hn : opN op = m % 16) :
    encodeXY m (opX op) (opY op) = op := by
  apply BitVec.eq_of_toNat_eq
  have := op.isLt
  rw [opT] at ht
  rw [opN] at hn
  rw [encodeXY_toNat _ _ (by omega), opX_val, opY_val]
  omega

theorem encodeXYN_fields {m : Nat} {op : Word} (hlow : m % 4096 = 0) (ht : opT op = m / 4096) :
    encodeXYN m (opX op) (opY op) (opN op) = op := by
  apply BitVec.eq_of_toNat_eq
  have := op.isLt
  rw [opT] at ht
  rw [encodeXYN_toNat _ _ (by rw [opN]; omega) (by omega), opX_val, opY_val, opN]
  omega

theorem encodeX_fields {m : Nat} {op : Word} (hlow : m % 4096 < 256) (ht : opT op = m / 4096)
    (hnn : (opNN op).toNat = m % 256) : encodeX m (opX op) = op := by
  apply BitVec.eq_of_toNat_eq
  have := op.isLt
  rw [opT] at ht
  rw [opNN_toNat] at hnn
  rw [encodeX_toNat _ (by omega), opX_val]
  omega

theorem addressFits_opNNN (op : Word) : addressFits (opNNN op) = true := by
  rw [addressFits, decide_eq_true_eq, opNNN_toNat]
  omega

theorem countFits_opN (op : Word) : countFits (opN op) = true := by
  rw [countFits, decide_eq_true_eq, opN]
  omega

/-! ## The words that decode, sub-table by sub-table (R95) -/

/-- The instruction is one that a word can encode, and `op` is its word. -/
def EncodedBy (op : Word) (i : Instr) : Prop := i.wf = true ∧ encode i = op

theorem decode0_encodedBy {op : Word} {i : Instr} (h : decode0 op = .instr i) : EncodedBy op i := by
  unfold decode0 at h
  split_ifs at h with hcls hret <;> cases h
  · exact ⟨rfl, BitVec.eq_of_toNat_eq hcls.symm⟩
  · exact ⟨rfl, BitVec.eq_of_toNat_eq hret.symm⟩

theorem decode8_encodedBy {op : Word} {i : Instr} (ht : opT op = 8) (h : decode8 op = .instr i) : EncodedBy op i := by
  unfold decode8 at h
  split at h <;> cases h
  all_goals exact ⟨rfl, encodeXY_fields (by decide) ht ‹_›⟩

theorem decodeE_encodedBy {op : Word} {i : Instr} (ht : opT op = 14) (h : decodeE op = .instr i) : EncodedBy op i := by
  unfold decodeE at h
  split at h <;> cases h
  all_goals exact ⟨rfl, encodeX_fields (by decide) ht ‹_›⟩

theorem decodeF_encodedBy {op : Word} {i : Instr} (ht : opT op = 15) (h : decodeF op = .instr i) : EncodedBy op i := by
  unfold decodeF at h
  split at h <;> cases h
  all_goals exact ⟨rfl, encodeX_fields (by decide) ht ‹_›⟩

/-- One case for each primary selector of R95. -/
theorem decodeWord_encodedBy {op : Word} {i : Instr} (h : decodeWord op = .instr i) : EncodedBy op i := by
  unfold decodeWord at h
  split at h
  case h_1 => exact decode0_encodedBy h
  case h_9 ht => exact decode8_encodedBy ht h
  case h_15 ht => exact decodeE_encodedBy ht h
  case h_16 ht => exact decodeF_encodedBy ht h
  case h_6 ht | h_10 ht =>
    split_ifs at h with hn
    cases h
    exact ⟨rfl, encodeXY_fields (by decide) ht hn⟩
  case h_14 ht => cases h; exact ⟨countFits_opN op, encodeXYN_fields rfl ht⟩
  case h_17 => cases h
  case h_2 ht | h_3 ht | h_11 ht | h_12 ht => cases h; exact ⟨addressFits_opNNN op, encodeNNN_fields rfl ht⟩
  all_goals (cases h; exact ⟨rfl, encodeXNN_fields rfl ‹_›⟩)

/-! ## The opcode map (R94) -/

/-- No two rows have a word in common: they differ on the bits that both masks fix. -/
theorem opcodeMap_disjoint : opcodeMap.Pairwise fun r q => r.pat &&& q.mask ≠ q.pat &&& r.mask := by decide

theorem OpcodeRow.hits_iff (r : OpcodeRow) (op : Word) : r.hits op = true ↔ op &&& r.mask = r.pat := beq_iff_eq

/-- A word that two rows both hit agrees with both patterns on the bits that both masks fix. -/
theorem OpcodeRow.pat_eq_of_hits {r q : OpcodeRow} {op : Word} (hr : r.hits op = true) (hq : q.hits op = true) :
    r.pat &&& q.mask = q.pat &&& r.mask := by
  rw [OpcodeRow.hits_iff] at hr hq
  rw [← hr, ← hq, BitVec.and_assoc, BitVec.and_assoc, BitVec.and_comm r.mask]

/-- A list whose distinct places are in a relation that none of its members bear to each other has one member. -/
theorem eq_singleton_of_pairwise {α : Type} {R : α → α → Prop} {a : α} {l : List α} (hp : l.Pairwise R) (ha : a ∈ l)
    (hR : ∀ x ∈ l, ∀ y ∈ l, ¬ R x y) : l = [a] := by
  match l with
  | [] => cases ha
  | [b] => rw [List.mem_singleton.mp ha]
  | b :: c :: _ => exact absurd (List.rel_of_pairwise_cons hp (by simp)) (hR b (by simp) c (by simp))

/-- The rows that a word hits are at most one. -/
theorem filter_hits_of_mem {row : OpcodeRow} {op : Word} (hmem : row ∈ opcodeMap) (hits : row.hits op = true) :
    opcodeMap.filter (fun r => r.hits op) = [row] :=
  eq_singleton_of_pairwise (opcodeMap_disjoint.filter _) (List.mem_filter.mpr ⟨hmem, hits⟩) fun _ hr _ hq hne =>
    hne (OpcodeRow.pat_eq_of_hits (List.mem_filter.mp hr).2 (List.mem_filter.mp hq).2)

/-- The whole family of Laws/PerInstr. -/
theorem row_of_word (i : Instr) : Laws.RowOfWord.Statement i :=
  match i with
  | .cls => Laws.RowOfWord.cls
  | .ret => Laws.RowOfWord.ret
  | .jp n => Laws.RowOfWord.jp n
  | .call n => Laws.RowOfWord.call n
  | .seImm x n => Laws.RowOfWord.seImm x n
  | .sneImm x n => Laws.RowOfWord.sneImm x n
  | .seReg x y => Laws.RowOfWord.seReg x y
  | .ldImm x n => Laws.RowOfWord.ldImm x n
  | .addImm x n => Laws.RowOfWord.addImm x n
  | .ldReg x y => Laws.RowOfWord.ldReg x y
  | .or x y => Laws.RowOfWord.or x y
  | .and x y => Laws.RowOfWord.and x y
  | .xor x y => Laws.RowOfWord.xor x y
  | .addReg x y => Laws.RowOfWord.addReg x y
  | .sub x y => Laws.RowOfWord.sub x y
  | .shr x y => Laws.RowOfWord.shr x y
  | .subn x y => Laws.RowOfWord.subn x y
  | .shl x y => Laws.RowOfWord.shl x y
  | .sneReg x y => Laws.RowOfWord.sneReg x y
  | .ldI n => Laws.RowOfWord.ldI n
  | .jpV0 n => Laws.RowOfWord.jpV0 n
  | .rnd x n => Laws.RowOfWord.rnd x n
  | .drw x y n => Laws.RowOfWord.drw x y n
  | .skp x => Laws.RowOfWord.skp x
  | .sknp x => Laws.RowOfWord.sknp x
  | .ldVxDt x => Laws.RowOfWord.ldVxDt x
  | .ldVxK x => Laws.RowOfWord.ldVxK x
  | .ldDtVx x => Laws.RowOfWord.ldDtVx x
  | .ldStVx x => Laws.RowOfWord.ldStVx x
  | .addI x => Laws.RowOfWord.addI x
  | .ldF x => Laws.RowOfWord.ldF x
  | .ldB x => Laws.RowOfWord.ldB x
  | .stRegs x => Laws.RowOfWord.stRegs x
  | .ldRegs x => Laws.RowOfWord.ldRegs x

theorem row_of_decoded {op : Word} {i : Instr} (h : decodeWord op = .instr i) :
    ∃ row ∈ opcodeMap, row.name = i.name ∧ row.hits op = true := by
  obtain ⟨hwf, rfl⟩ := decodeWord_encodedBy h
  exact row_of_word i hwf

/-- The selectors of a word the decoder rejects (R95). -/
theorem decodeWord_unknown_cases {op op' : Word} (h : decodeWord op = .unknownOpcode op') :
    (opT op = 0 ∧ op.toNat ≠ 0x00E0 ∧ op.toNat ≠ 0x00EE) ∨ ((opT op = 5 ∨ opT op = 9) ∧ opN op ≠ 0) ∨
    (opT op = 8 ∧ opN op ∉ [0, 1, 2, 3, 4, 5, 6, 7, 0xE]) ∨ (opT op = 14 ∧ (opNN op).toNat ∉ [0x9E, 0xA1]) ∨
    (opT op = 15 ∧ (opNN op).toNat ∉ [0x07, 0x0A, 0x15, 0x18, 0x1E, 0x29, 0x33, 0x55, 0x65]) := by
  unfold decodeWord at h
  split at h
  case h_1 ht =>
    unfold decode0 at h
    split_ifs at h with hcls hret
    exact .inl ⟨ht, hcls, hret⟩
  case h_6 ht =>
    split_ifs at h with hn
    exact .inr (.inl ⟨.inl ht, hn⟩)
  case h_10 ht =>
    split_ifs at h with hn
    exact .inr (.inl ⟨.inr ht, hn⟩)
  case h_9 ht =>
    unfold decode8 at h
    split at h <;> cases h
    exact .inr (.inr (.inl ⟨ht, by simp only [List.mem_cons, List.not_mem_nil]; tauto⟩))
  case h_15 ht =>
    unfold decodeE at h
    split at h <;> cases h
    exact .inr (.inr (.inr (.inl ⟨ht, by simp only [List.mem_cons, List.not_mem_nil]; tauto⟩)))
  case h_16 ht =>
    unfold decodeF at h
    split at h <;> cases h
    exact .inr (.inr (.inr (.inr ⟨ht, by simp only [List.mem_cons, List.not_mem_nil]; tauto⟩)))
  case h_17 =>
    have := op.isLt
    have hbig : opT op < 16 := by rw [opT]; omega
    interval_cases opT op <;> simp_all
  all_goals cases h

/-- A word that the decoder rejects lies in no row: each row's mask and pattern as arithmetic. -/
theorem not_hits_of_unknown {op op' : Word} (h : decodeWord op = .unknownOpcode op') :
    ∀ r ∈ opcodeMap, ¬ r.hits op = true := by
  have hsel := decodeWord_unknown_cases h
  simp only [opT, opN, opNN_toNat, List.mem_cons, List.not_mem_nil, or_false] at hsel
  simp only [opcodeMap, opcodeMapA, opcodeMapB, opcodeMapC, List.forall_mem_append, List.forall_mem_cons, hits_F000,
    hits_F00F, hits_F0FF, hits_FFFF, decide_eq_true_eq, BitVec.reduceToNat, List.not_mem_nil, false_implies,
    implies_true, and_true]
  omega

/-! ## The obligations -/

/-- Settles O2: by the row of each instruction, whose fields the decoder reads back. -/
theorem decodeOfEncode : Obligations.DecodeOfEncode := fun _ hwf => decodeWord_encode hwf

/-- Settles O3: each answer of the two-level dispatch puts the word's own fields back in their places. -/
theorem encodeOfDecode : Obligations.EncodeOfDecode := fun _ _ h => decodeWord_encodedBy h

/-- Settles O4: a decoded word lies in the row of its instruction and, the rows being disjoint, in no other; a rejected one
misses every row. -/
theorem decoderFollowsOpcodeMap : Obligations.DecoderFollowsOpcodeMap := by
  intro op
  refine ⟨fun i h => ?decoded, fun op' h => ⟨decodeWord_unknown h, List.filter_eq_nil_iff.mpr (not_hits_of_unknown h)⟩⟩
  case decoded =>
    obtain ⟨row, hmem, hname, hits⟩ := row_of_decoded h
    rw [filter_hits_of_mem hmem hits, List.map_singleton, hname]

/-- Settles O1: the sample words decode by evaluation; each illegal one is rejected, so it is the word of no instruction. -/
theorem sampleWordsDecode : Obligations.SampleWordsDecode := by
  have hrej : ∀ w ∈ [0x5121, 0x9125, 0x800F, 0x8008, 0xE09F, 0xF000, 0xF0FF, 0x0123, 0x00E1],
      decodeWord (BitVec.ofNat 16 w) = .unknownOpcode (BitVec.ofNat 16 w) := by decide
  refine ⟨?_, ?_, ?_, ?_, ?_, ?_, ?_, ?_, ?_, ?_, ?_, ?_, ?_, ?_, ?_, ?_, fun w hw i h => ?illegal⟩
  case illegal => cases (hrej w hw).symm.trans h
  all_goals decide

end Sys2Proof
end

section
/-! What one instruction can write (10_state.md, 40_cycle.md section 3): the meanings that branch, branch by branch, then
the obligations on the frame of `exec`, on its PC update and on what it does not read (R22 to R33, R125). -/

namespace Sys2Proof.Machine

/-! ## The meanings that branch, each branch by its condition -/

theorem exec_ret_of_empty {s : State} (h : s.stack = []) : exec .ret s = .next (s.raiseFault .stackUnderflow 0x00EE) := by
  simp only [exec, execRet, State.pop_of_empty h, encode]

theorem exec_ret_of_concat {s : State} {st : List Word} {a : Word} (h : s.stack = st ++ [a]) :
    exec .ret s = .next { s with stack := st, pc := a + 2 } := by
  simp only [exec, execRet, State.pop_of_concat h, State.goto]

theorem exec_call_of_full {s : State} (n : Word) (h : s.cfg.stackLimit = some s.stack.length) :
    exec (.call n) s = .next (s.raiseFault .stackOverflow (encode (.call n))) := by
  simp only [exec, execCall, State.push_of_full h]

theorem exec_call_of_room {s : State} (n : Word) (h : s.cfg.stackLimit ≠ some s.stack.length) :
    exec (.call n) s = .next { s with stack := s.stack ++ [s.pc], pc := n } := by
  simp only [exec, execCall, State.push_of_room h, State.goto]

theorem exec_ldVxK_of_idle {s : State} (x : Reg) (h : s.pendingUnblock = false) :
    exec (.ldVxK x) s = .next { s with blocked := true } := by
  simp [exec, execLdVxK, h]

theorem exec_ldVxK_of_pending {s : State} (x : Reg) (h : s.pendingUnblock = true) :
    exec (.ldVxK x) s = .next (State.nextPc (State.setV { s with pendingUnblock := false, lastKey := none } x
      ((s.lastKey.map keyByte).getD (s.getV x)))) := by
  simp [exec, execLdVxK, h]

/-! ## The two stores: only memory and PC change -/

theorem exec_ldB (x : Reg) (s : State) : exec (.ldB x) s =
    .next { s with mem := (s.storeBytes s.indexBase (bcdDigits (s.getV x))).mem, pc := s.pc + 2 } := by
  simp only [exec, execLdB, State.nextPc, State.goto, State.storeBytes_pc]
  rw [State.storeBytes_frame]

theorem exec_stRegs (x : Reg) (s : State) : exec (.stRegs x) s =
    .next { s with mem := (s.storeBytes s.indexBase (s.regBlock x)).mem, pc := s.pc + 2 } := by
  simp only [exec, execStRegs, State.nextPc, State.goto, State.storeBytes_pc]
  rw [State.storeBytes_frame]

/-! ## Totality -/

theorem exec_total (i : Instr) (s : State) : ∃ t, exec i s = .next t := by
  cases i with
  | ret => obtain ⟨-, he⟩ | ⟨_, _, -, he⟩ := exec_ret_cases s <;> exact ⟨_, he⟩
  | call n => obtain ⟨-, he⟩ | ⟨-, he⟩ := exec_call_cases n s <;> exact ⟨_, he⟩
  | ldVxK x => obtain ⟨-, he⟩ | ⟨-, he⟩ := exec_ldVxK_cases x s <;> exact ⟨_, he⟩
  | _ => exact ⟨_, rfl⟩

theorem tick_total (s : State) : ∃ t, tick s = .next t := by
  obtain ⟨-, h⟩ | ⟨-, -, h⟩ | ⟨-, -, -, h⟩ | ⟨-, i, -, h⟩ | ⟨-, _, -, h⟩ := tick_cases s
  case inr.inr.inr.inl => exact h ▸ exec_total i s.timerPass
  all_goals exact ⟨_, h⟩

/-- Settles O43: each meaning answers a next state in each of its branches, and so does each case of a tick. -/
theorem nothingStops : Obligations.NothingStops := ⟨exec_total, fun s => tick_total s.deliver⟩

/-! ## Who writes what -/

theorem memKept_of_mem {s t : State} (hm : t.mem = s.mem) (hc : t.cfg = s.cfg) : MemKept s t := fun a => by
  simp only [State.memRead, State.background, hm, hc]

/-- Settles O50: class by class of destinations; Fx65's are the registers up to `x`. -/
theorem onlyDestinationRegistersChange : Obligations.OnlyDestinationRegistersChange := by
  intro i s t h
  cases i with
  | ldImm x _ | addImm x _ | ldReg x _ | or x _ | and x _ | xor x _ | ldVxDt x =>
    cases h; exact (onlyRegs_nextPc_setV s x _).1
  | rnd x nn => cases h; exact (onlyRegs_nextPc_setV s.drawRandom x _).1
  | addReg x _ | sub x _ | shr x _ | subn x _ | shl x _ => cases h; exact (onlyRegs_nextPc_setVFlag s x _ _).1
  | addI _ | drw _ _ _ => cases h; exact regsKept_nextPc_setV_regF _ fun _ => rfl
  | ldRegs x =>
    cases h
    intro r hr
    have hlt : ¬ r ≤ x := by simpa [instrWrites] using hr
    rw [State.getV_nextPc, State.getV_loadBlock, if_neg hlt]
  | ldVxK x =>
    obtain ⟨-, he⟩ | ⟨-, he⟩ := exec_ldVxK_cases x s <;> (rw [he] at h; cases h)
    · exact fun _ _ => rfl
    · exact (onlyRegs_nextPc_setV { s with pendingUnblock := false, lastKey := none } x _).1
  | ret => obtain ⟨-, he⟩ | ⟨_, _, -, he⟩ := exec_ret_cases s <;> (rw [he] at h; cases h; exact fun _ _ => rfl)
  | call n => obtain ⟨-, he⟩ | ⟨-, he⟩ := exec_call_cases n s <;> (rw [he] at h; cases h; exact fun _ _ => rfl)
  | ldB _ | stRegs _ => cases h; exact fun r _ => State.getV_storeBytes s _ _ r
  | _ => cases h; exact fun _ _ => rfl

/-- Settles O52: each field by the update lemmas of the operations an instruction uses. -/
theorem eachStateHasItsWriters : Obligations.EachStateHasItsWriters := by
  intro i s t h
  cases i with
  | ret => obtain ⟨-, he⟩ | ⟨_, _, -, he⟩ := exec_ret_cases s <;> (rw [he] at h; cases h; simp)
  | call n => obtain ⟨-, he⟩ | ⟨-, he⟩ := exec_call_cases n s <;> (rw [he] at h; cases h; simp)
  | ldVxK x => obtain ⟨-, he⟩ | ⟨-, he⟩ := exec_ldVxK_cases x s <;> (rw [he] at h; cases h; simp)
  | _ => cases h; simp

section
variable {i : Instr} {s t : State} (h : exec i s = .next t)
include h

theorem exec_cfg : t.cfg = s.cfg := by
  obtain ⟨-, -, -, -, -, -, -, -, hcfg, -⟩ := eachStateHasItsWriters i s t h
  exact hcfg

theorem exec_loaded : t.loaded = s.loaded := by
  obtain ⟨-, -, -, -, -, -, -, hloaded, -⟩ := eachStateHasItsWriters i s t h
  exact hloaded

theorem exec_inputs : t.env.inputs = s.env.inputs := by
  obtain ⟨-, -, -, -, -, -, -, -, -, hinputs⟩ := eachStateHasItsWriters i s t h
  exact hinputs

theorem exec_keeps_mem (hbcd : ∀ x, i ≠ .ldB x) (hregs : ∀ x, i ≠ .stRegs x) : t.mem = s.mem := by
  cases i with
  | ldB x => exact absurd rfl (hbcd x)
  | stRegs x => exact absurd rfl (hregs x)
  | ret => obtain ⟨-, he⟩ | ⟨_, _, -, he⟩ := exec_ret_cases s <;> (rw [he] at h; cases h; rfl)
  | call n => obtain ⟨-, he⟩ | ⟨-, he⟩ := exec_call_cases n s <;> (rw [he] at h; cases h; rfl)
  | ldVxK x => obtain ⟨-, he⟩ | ⟨-, he⟩ := exec_ldVxK_cases x s <;> (rw [he] at h; cases h; rfl)
  | _ => cases h; rfl

theorem exec_keeps_screen (hcls : i ≠ .cls) (hdrw : ∀ x y n, i ≠ .drw x y n) : t.fb = s.fb ∧ t.dirty = s.dirty := by
  cases i with
  | cls => exact absurd rfl hcls
  | drw x y n => exact absurd rfl (hdrw x y n)
  | ret => obtain ⟨-, he⟩ | ⟨_, _, -, he⟩ := exec_ret_cases s <;> (rw [he] at h; cases h; exact ⟨rfl, rfl⟩)
  | call n => obtain ⟨-, he⟩ | ⟨-, he⟩ := exec_call_cases n s <;> (rw [he] at h; cases h; exact ⟨rfl, rfl⟩)
  | ldVxK x => obtain ⟨-, he⟩ | ⟨-, he⟩ := exec_ldVxK_cases x s <;> (rw [he] at h; cases h; exact ⟨rfl, rfl⟩)
  | ldB x => cases (exec_ldB x s).symm.trans h; exact ⟨rfl, rfl⟩
  | stRegs x => cases (exec_stRegs x s).symm.trans h; exact ⟨rfl, rfl⟩
  | _ => cases h; exact ⟨rfl, rfl⟩

end

/-- Settles O51: by the writers of memory and of the screen. -/
theorem onlyStoresAndDrawsReachMemoryAndScreen : Obligations.OnlyStoresAndDrawsReachMemoryAndScreen := by
  intro i s t h
  refine ⟨fun ⟨hbcd, hregs⟩ => ?memory, fun ⟨hcls, hdrw⟩ => exec_keeps_screen h hcls hdrw⟩
  case memory =>
    have hmem := exec_keeps_mem h hbcd hregs
    exact ⟨hmem, memKept_of_mem hmem (exec_cfg h)⟩

/-! ## PC -/

/-- The target of Bnnn in 16-bit arithmetic (R177). -/
theorem State.offsetTarget_eq (s : State) (n : Word) : s.offsetTarget n = n + zext16 (s.getV 0) := by
  apply BitVec.eq_of_toNat_eq
  have := (s.getV 0).isLt
  simp only [State.offsetTarget, zext16, BitVec.toNat_ofNat, BitVec.toNat_add, BitVec.toNat_setWidth]
  omega

/-- A skip adds 4 or 2 (R125). -/
theorem State.skipPc_pc_cases (s : State) (c : Bool) : (s.skipPc c).pc = s.pc + 2 ∨ (s.skipPc c).pc = s.pc + 4 := by
  cases c
  · exact .inl rfl
  · exact .inr rfl

/-- Settles O54: every instruction ends in `nextPc`, `skipPc` or `goto`, but where Fx0A blocks or a fault is taken. -/
theorem pcUpdateClasses : Obligations.PcUpdateClasses := by
  intro i s t h
  cases i with
  | ret =>
    obtain ⟨hs, he⟩ | ⟨st, a, hs, he⟩ := exec_ret_cases s <;> (rw [he] at h; cases h; simp [pcClassOf, hs])
  | call n =>
    obtain ⟨hs, he⟩ | ⟨hs, he⟩ := exec_call_cases n s <;> (rw [he] at h; cases h; simp [pcClassOf, hs])
  | ldVxK x =>
    obtain ⟨hs, he⟩ | ⟨hs, he⟩ := exec_ldVxK_cases x s <;> (rw [he] at h; cases h; simp [pcClassOf, hs])
  | jpV0 n => cases h; simp [pcClassOf, State.offsetTarget_eq]
  | seImm _ _ | sneImm _ _ | seReg _ _ | sneReg _ _ | skp _ | sknp _ =>
    cases h
    exact ⟨nofun, fun _ => State.skipPc_pc_cases s _, nofun, nofun, nofun, nofun, nofun⟩
  | _ => cases h; simp [pcClassOf]

/-! ## What is not read -/

section
variable {s s' : State} (x : Reg) (hm : s'.mem = s.mem) (hc : s'.cfg = s.cfg) (hv : s'.v = s.v) (hi : s'.i = s.i)
include hm hc hv hi

/-- Fx33 reads memory, font, registers and I alone. -/
theorem exec_ldB_congr : exec (.ldB x) s' =
    .next { s' with mem := (s.storeBytes s.indexBase (bcdDigits (s.getV x))).mem, pc := s'.pc + 2 } := by
  rw [exec_ldB, State.storeBytes_mem_congr (s := s) (t := s') _ _ hm hc]
  simp only [State.indexBase, State.getV, hv, hi]

/-- So does Fx55. -/
theorem exec_stRegs_congr : exec (.stRegs x) s' =
    .next { s' with mem := (s.storeBytes s.indexBase (s.regBlock x)).mem, pc := s'.pc + 2 } := by
  rw [exec_stRegs, State.storeBytes_mem_congr (s := s) (t := s') _ _ hm hc]
  simp only [State.indexBase, State.regBlock, hv, hi]

end

/-- Settles O55: the other meanings name no key, and where they branch it is on the stack, its limit or the block state. -/
theorem keysReachOnlyKeySkips : Obligations.KeysReachOnlyKeySkips := by
  intro i s t ks hskp hsknp h
  cases i with
  | skp x => exact absurd rfl (hskp x)
  | sknp x => exact absurd rfl (hsknp x)
  | ret =>
    obtain ⟨hs, he⟩ | ⟨st, a, hs, he⟩ := exec_ret_cases s <;> (rw [he] at h; cases h)
    · exact exec_ret_of_empty hs
    · exact exec_ret_of_concat hs
  | call n =>
    obtain ⟨hs, he⟩ | ⟨hs, he⟩ := exec_call_cases n s <;> (rw [he] at h; cases h)
    · exact exec_call_of_full n hs
    · exact exec_call_of_room n hs
  | ldVxK x =>
    obtain ⟨hs, he⟩ | ⟨hs, he⟩ := exec_ldVxK_cases x s <;> (rw [he] at h; cases h)
    · exact exec_ldVxK_of_idle x hs
    · exact exec_ldVxK_of_pending x hs
  | ldB x => cases (exec_ldB x s).symm.trans h; exact exec_ldB_congr x rfl rfl rfl rfl
  | stRegs x => cases (exec_stRegs x s).symm.trans h; exact exec_stRegs_congr x rfl rfl rfl rfl
  | _ => cases h; rfl

/-- Settles O56: Fx18 writes ST, 00E0 and Dxyn write the dirty flag, and no meaning names either otherwise. -/
theorem soundTimerAndDirtyUnread : Obligations.SoundTimerAndDirtyUnread := by
  intro i s t b d h
  cases i with
  | ldStVx x => cases h; exact ⟨s.getV x, d, rfl⟩
  | cls | drw _ _ _ => cases h; exact ⟨b, true, rfl⟩
  | ret =>
    obtain ⟨hs, he⟩ | ⟨st, a, hs, he⟩ := exec_ret_cases s <;> (rw [he] at h; cases h)
    · exact ⟨b, d, exec_ret_of_empty hs⟩
    · exact ⟨b, d, exec_ret_of_concat hs⟩
  | call n =>
    obtain ⟨hs, he⟩ | ⟨hs, he⟩ := exec_call_cases n s <;> (rw [he] at h; cases h)
    · exact ⟨b, d, exec_call_of_full n hs⟩
    · exact ⟨b, d, exec_call_of_room n hs⟩
  | ldVxK x =>
    obtain ⟨hs, he⟩ | ⟨hs, he⟩ := exec_ldVxK_cases x s <;> (rw [he] at h; cases h)
    · exact ⟨b, d, exec_ldVxK_of_idle x hs⟩
    · exact ⟨b, d, exec_ldVxK_of_pending x hs⟩
  | ldB x => cases (exec_ldB x s).symm.trans h; exact ⟨b, d, exec_ldB_congr x rfl rfl rfl rfl⟩
  | stRegs x => cases (exec_stRegs x s).symm.trans h; exact ⟨b, d, exec_stRegs_congr x rfl rfl rfl rfl⟩
  | _ => cases h; exact ⟨b, d, rfl⟩

end Sys2Proof.Machine
end

section
/-! The step (40_cycle.md, 60_exceptions.md section 1): what a batch of host actions does to a machine that waits, that has
no Fx0A waiting or that is unloaded; where faults come from; then the obligations on whole steps (R120 to R131, R300 to
R303). -/

namespace Sys2Proof.Machine

/-! ## The tick, case by case -/

theorem State.fault_of_running {s : State} (h : s.running = true) : s.fault = none := by
  obtain ⟨-, hf, -⟩ := s.running_iff.mp h
  exact hf

theorem State.loaded_of_running {s : State} (h : s.running = true) : s.loaded = true := by
  obtain ⟨hl, -, -⟩ := s.running_iff.mp h
  exact hl

theorem tick_instr {s : State} {i : Instr} (hr : s.running = true) (hd : decodeWord s.fetch = .instr i) :
    tick s = exec i s.timerPass := by
  rw [tick_running hr, interpret_instr (s := s.timerPass) hd]

theorem tick_unknown {s : State} {op : Word} (hr : s.running = true) (hd : decodeWord s.fetch = .unknownOpcode op) :
    tick s = .next (s.timerPass.raiseFault .unknownOpcode s.fetch) := by
  rw [tick_running hr, interpret_unknown (s := s.timerPass) hd, decodeWord_unknown hd]

/-- What no case of a tick changes: the parameters, the loaded flag and the schedule. -/
theorem tick_frame {s t : State} (h : tick s = .next t) :
    t.cfg = s.cfg ∧ t.loaded = s.loaded ∧ t.env.inputs = s.env.inputs := by
  obtain ⟨-, he⟩ | ⟨-, -, he⟩ | ⟨-, -, -, he⟩ | ⟨-, i, -, he⟩ | ⟨-, _, -, he⟩ := tick_cases s <;> rw [he] at h
  case inr.inr.inr.inl =>
    have hcfg : t.cfg = s.timerPass.cfg := exec_cfg h
    have hinputs : t.env.inputs = s.timerPass.env.inputs := exec_inputs h
    exact ⟨hcfg, (exec_loaded h : t.loaded = s.timerPass.loaded), hinputs⟩
  all_goals (cases h; exact ⟨rfl, rfl, rfl⟩)

theorem tick_loaded {s t : State} (h : tick s = .next t) : t.loaded = s.loaded := by
  obtain ⟨-, hl, -⟩ := tick_frame h
  exact hl

/-! ## Batches of host actions -/

theorem State.acts_append_cons (s : State) (pre more : List HostAction) (a : HostAction) :
    s.acts (pre ++ a :: more) = ((s.acts pre).act a).acts more := by
  simp only [State.acts, List.foldl_append, List.foldl_cons]

/-- No host action unloads a machine (R350 to R353). -/
theorem State.act_loaded (s : State) (a : HostAction) (h : s.loaded = true) : (s.act a).loaded = true := by
  cases hg : a.isGoodLoad with
  | false => rw [State.act_frame s a hg]; exact h
  | true =>
    cases a with
    | load rom => rw [State.act_goodLoad s (of_decide_eq_true hg)]; rfl
    | _ => cases hg

theorem State.deliver_loaded {s : State} (h : s.loaded = true) : s.deliver.loaded = true := by
  rw [State.deliver_eq]
  exact State.acts_induction (P := fun u => u.loaded = true) State.act_loaded _ _ h

/-- An unloaded machine ignores every action but a successful load (R353). -/
theorem State.act_unloaded {s : State} {a : HostAction} (hl : s.loaded = false) (ha : a.isGoodLoad = false) :
    s.act a = s := by
  cases a with
  | load rom => exact State.act_oversizeLoad s (Nat.lt_of_not_le (of_decide_eq_false ha))
  | keyDown c => simp [State.act, State.keyDown, hl]
  | keyUp c => simp [State.act, State.keyUp, hl]
  | clearDirty => simp [State.act, State.clearDirty, hl]
  | frame | isSoundActive => rfl

theorem State.deliver_unloaded {s : State} (hl : s.loaded = false) (h : ∀ a ∈ s.nextBatch, a.isGoodLoad = false) :
    s.deliver = { s with env := { s.env with inputs := s.env.inputs.tail } } := by
  rw [State.deliver_eq]
  refine State.acts_induction_mem (P := fun u => u = { s with env := { s.env with inputs := s.env.inputs.tail } })
    s.nextBatch ?_ _ rfl
  intro u a ha hu
  have hul : u.loaded = false := by rw [hu]; exact hl
  rw [State.act_unloaded hul (h a ha), hu]

/-- A batch that does not end an Fx0A wait touches keys, dirty flag and schedule only. -/
theorem State.deliver_noWait (s : State) (h : ∀ a ∈ s.nextBatch, a.endsWait = false) :
    s.deliver = { s with keys := s.deliver.keys, dirty := s.deliver.dirty,
                         env := { s.env with inputs := s.env.inputs.tail } } := by
  rw [State.deliver_eq, State.acts_noWait _ _ h]

/-- While no Fx0A waits, an action other than a successful load touches keys and dirty flag only (R312). -/
theorem State.act_unblocked {s : State} {a : HostAction} (hb : s.blocked = false) (ha : a.isGoodLoad = false) :
    s.act a = { s with keys := (s.act a).keys, dirty := (s.act a).dirty } := by
  cases a with
  | keyDown c =>
    have hkeys : s.keyDown c = if s.loaded then { s with keys := s.keys.set c true } else s := by
      simp [State.keyDown, hb]
    simp only [State.act, hkeys]
    split <;> rfl
  | load rom => exact State.act_noWait s _ ha
  | _ => exact State.act_noWait s _ rfl

theorem State.acts_unblocked {s : State} {batch : List HostAction} (hb : s.blocked = false)
    (h : ∀ a ∈ batch, a.isGoodLoad = false) :
    s.acts batch = { s with keys := (s.acts batch).keys, dirty := (s.acts batch).dirty } := by
  refine State.acts_induction_mem (P := fun t => t = { s with keys := t.keys, dirty := t.dirty }) batch ?_ _ rfl
  intro u a ha hu
  have hub : u.blocked = false := by rw [hu]; exact hb
  rw [State.act_unblocked hub (h a ha)]
  rw [hu]

/-! ## Where faults come from (R300) -/

/-- What one instruction can do to the fault latch: RET and CALL are its writers, each under its own condition. -/
theorem exec_fault_cases {i : Instr} {s t : State} (h : exec i s = .next t) :
    (t.fault = s.fault ∧ (i = .ret → s.stack ≠ []) ∧ ∀ n, i = .call n → s.cfg.stackLimit ≠ some s.stack.length) ∨
    (i = .ret ∧ s.stack = [] ∧ t = s.raiseFault .stackUnderflow (encode .ret)) ∨
    (∃ n, i = .call n ∧ s.cfg.stackLimit = some s.stack.length ∧
      t = s.raiseFault .stackOverflow (encode (.call n))) := by
  by_cases hret : i = .ret
  · subst hret
    obtain ⟨hs, he⟩ | ⟨st, a, hs, he⟩ := exec_ret_cases s <;> (rw [he] at h; cases h)
    · exact .inr (.inl ⟨rfl, hs, rfl⟩)
    · exact .inl ⟨rfl, fun _ => by simp [hs], nofun⟩
  by_cases hcall : ∃ n, i = .call n
  · obtain ⟨n, rfl⟩ := hcall
    obtain ⟨hs, he⟩ | ⟨hs, he⟩ := exec_call_cases n s <;> (rw [he] at h; cases h)
    · exact .inr (.inr ⟨n, rfl, hs, rfl⟩)
    · exact .inl ⟨rfl, nofun, fun _ _ => hs⟩
  · have hcall' := not_exists.mp hcall
    exact .inl ⟨exec_keeps_fault h hret hcall', fun e => absurd e hret, fun n e => absurd e (hcall' n)⟩

theorem opNNN_of_decode_call {op n : Word} (h : decodeWord op = .instr (.call n)) : n = opNNN op := by
  obtain ⟨hwf, rfl⟩ := decodeWord_encodedBy h
  exact (opNNN_encodeNNN (of_decide_eq_true hwf) (by decide) rfl).symm

/-- A fault that an interpreter step latches is that of the instruction at PC: its condition holds and only the latch
changes (R300, R301). -/
theorem interpret_fault {s t : State} {r : FaultRecord} (hf : s.fault = none) (h : interpret s = .next t)
    (hr : t.fault = some r) :
    r.opcode = s.fetch ∧ r.pc = s.pc ∧ s.raises r.kind = true ∧ t = { s with fault := some r } := by
  cases hd : decodeWord s.fetch with
  | unknownOpcode op =>
    rw [interpret_unknown hd, decodeWord_unknown hd] at h
    cases h
    cases hr
    exact ⟨rfl, rfl, decide_eq_true (decodeWord_unknown hd ▸ hd), rfl⟩
  | instr i =>
    rw [interpret_instr hd] at h
    obtain ⟨-, hop⟩ := decodeWord_encodedBy hd
    obtain ⟨hkept, -, -⟩ | ⟨rfl, hs, rfl⟩ | ⟨n, rfl, hs, rfl⟩ := exec_fault_cases h
    · rw [hkept, hf] at hr
      cases hr
    · cases hr
      exact ⟨hop, rfl, by simp [State.raises, hd, hs], rfl⟩
    · cases hr
      have hn := opNNN_of_decode_call hd
      exact ⟨hop, rfl, by simp [State.raises, hd, ← hn, State.stackFull, hs], rfl⟩

/-- A running machine's tick ends without a fault exactly if the program is well-behaved at PC (R355). -/
theorem tick_fault_none_iff {s t : State} (hr : s.running = true) (h : tick s = .next t) :
    t.fault = none ↔ s.wellBehaved := by
  cases hd : decodeWord s.fetch with
  | unknownOpcode op =>
    rw [tick_unknown hr hd] at h
    cases h
    simp [State.wellBehaved, hd]
  | instr i =>
    rw [tick_instr hr hd] at h
    simp only [State.wellBehaved, hd, Decoded.instr.injEq]
    obtain ⟨hkept, hret, hcall⟩ | ⟨rfl, hs, rfl⟩ | ⟨n, rfl, hs, rfl⟩ := exec_fault_cases h
    · rw [hkept, State.timerPass_fault, State.fault_of_running hr]
      exact ⟨fun _ => ⟨nofun, hret, hcall⟩, fun _ => rfl⟩
    · exact ⟨nofun, fun ⟨_, hret, _⟩ => absurd hs (hret rfl)⟩
    · exact ⟨nofun, fun ⟨_, _, hcall⟩ => absurd hs (hcall n rfl)⟩

/-! ## The obligations: running machines -/

/-- Settles O36: the fetch is after the timer pass, which changes none of what it reads. -/
theorem stepRunsDecodedInstruction : Obligations.StepRunsDecodedInstruction := fun _ _ hr hd => tick_instr hr hd

/-- Settles O37: a word in no row does not decode, since a decoded word lies in its instruction's row. -/
theorem unknownWordLatches : Obligations.UnknownWordLatches := by
  intro s hr hrow
  cases hd : decodeWord s.deliver.fetch with
  | instr i =>
    obtain ⟨row, hmem, -, hits⟩ := row_of_decoded hd
    exact absurd hits (List.filter_eq_nil_iff.mp hrow row hmem)
  | unknownOpcode op => exact tick_unknown hr hd

/-- Settles O39: a running machine has no fault before its tick, so the latched one is its interpreter step's. -/
theorem faultsArePrecise : Obligations.FaultsArePrecise := by
  intro s t r hr h ht
  have hl : t.loaded = true := (tick_loaded h).trans (State.loaded_of_running hr)
  rw [step, tick_running hr] at h
  obtain ⟨hop, hpc, hraises, hstate⟩ := interpret_fault (s := s.deliver.timerPass) (State.fault_of_running hr) h ht
  exact ⟨hpc, hop, hraises, State.tickResult_fault hl ht, hstate⟩

/-- Settles O41: the two readings of the answer, the latch and the result, are one on a loaded machine. -/
theorem safeIffWellBehaved : Obligations.SafeIffWellBehaved := by
  intro s hr
  obtain ⟨t, h⟩ := tick_total s.deliver
  have hl : t.loaded = true := (tick_loaded h).trans (State.loaded_of_running hr)
  have hiff := tick_fault_none_iff hr h
  exact ⟨t, h, Option.isNone_iff_eq_none.trans hiff, (State.tickResult_ok_iff hl).trans hiff⟩

/-! ## The obligations: blocked, faulted and unloaded machines -/

/-- Settles O38: the tick of a blocked machine is the timer pass. -/
theorem blockedTickOnlyCountsDown : Obligations.BlockedTickOnlyCountsDown := by
  intro s hl hf hb
  exact ⟨_, tick_blocked hl hf hb, countDown_toNat _, countDown_toNat _, rfl, fun _ _ => rfl, fun _ => rfl,
    (State.tickResult_ok_iff hl).mpr hf, rfl⟩

/-- Settles O40: the tick of a faulted machine is the state it starts in, which differs from the old one by the batch. -/
theorem faultStaysUntilLoad : Obligations.FaultStaysUntilLoad := by
  intro s r hf
  refine ⟨fun hb => ?frozen, fun rom hlen => ?cleared⟩
  case cleared => rw [State.act_goodLoad s hlen]; rfl
  case frozen =>
    have hframe := State.deliver_frame s hb
    generalize hu : s.deliver = u at hframe
    have hfu : u.fault = some r := by rw [hframe]; exact hf
    have hlu : u.loaded = s.loaded := by rw [hframe]
    refine ⟨u, by rw [step, hu, tick_faulted hfu], hfu, fun hl => ?_, fun hl => ?_, ?_⟩
    · exact State.tickResult_fault (hlu.trans hl) hfu
    · exact State.tickResult_unloaded (hlu.trans hl)
    · rw [hframe]
      exact ⟨rfl, rfl, rfl, fun _ _ => rfl, fun _ => rfl, rfl⟩

/-- Settles O42: delivery takes the batch off and does nothing else, the tick nothing at all, and each answer is the blank
one. -/
theorem unloadedDoesNothing : Obligations.UnloadedDoesNothing := by
  intro s hl hb
  have hframe : s.frame = (Framebuffer.blank s.cfg.fbH s.cfg.fbW, false) := by simp [State.frame, hl]
  refine ⟨⟨_, ?step, rfl, State.tickResult_unloaded hl⟩, ?hooks, ?sound, ?rest⟩
  case step => rw [step, State.deliver_unloaded hl hb]; exact tick_unloaded hl
  case hooks => simp [State.tickHooks, hl]
  case sound => simp [State.isSoundActive, hl]
  case rest =>
    rw [hframe]
    exact ⟨rfl, Framebuffer.blank_wf _ _, Framebuffer.pixel_blank _ _⟩

/-! ## The obligations: whole steps -/

/-- Settles O58: delivery takes one batch off and keeps the rest, and so does each case of a tick. -/
theorem parametersAndSchedule : Obligations.ParametersAndSchedule := by
  intro s t h
  obtain ⟨hcfg, hloaded, hinputs⟩ := tick_frame h
  refine ⟨hcfg.trans s.deliver_cfg, fun hl => hloaded.trans (State.deliver_loaded hl), ?schedule⟩
  case schedule => rw [hinputs, State.deliver_env]

/-- Settles O57: Cxnn is the one writer of the draw counter, and the only tick that runs an instruction is a running
machine's. -/
theorem oneDrawPerRandom : Obligations.OneDrawPerRandom := by
  intro s t h
  have hdraws : s.deliver.env.draws = s.env.draws := by rw [State.deliver_env]
  rw [← hdraws]
  refine ⟨fun ⟨hr, x, nn, hd⟩ => ?draw, fun hno => ?none⟩
  case draw =>
    rw [step, tick_instr hr hd] at h
    cases h
    rfl
  case none =>
    obtain ⟨-, he⟩ | ⟨-, -, he⟩ | ⟨-, -, -, he⟩ | ⟨hr, i, hd, he⟩ | ⟨-, _, -, he⟩ := tick_cases s.deliver <;>
      rw [step, he] at h
    case inr.inr.inr.inl =>
      obtain ⟨-, -, -, -, -, henv, -⟩ := eachStateHasItsWriters i _ t h
      rw [henv fun x nn e => hno ⟨hr, x, nn, e ▸ hd⟩, State.timerPass_env]
    all_goals (cases h; rfl)

/-- Settles O35: the timer pass is in every case of the tick, and Fx15 and Fx18 are the only writers after it. -/
theorem timersDecay : Obligations.TimersDecay := by
  intro s t hl hf hb h
  have hdt : s.deliver.dt = s.dt := by rw [State.deliver_frame s hb]
  have hst : s.deliver.st = s.st := by rw [State.deliver_frame s hb]
  rw [← hdt, ← hst, ← countDown_toNat, ← countDown_toNat]
  obtain ⟨hl', -⟩ | ⟨-, ⟨r, hf'⟩, -⟩ | ⟨-, -, -, he⟩ | ⟨hr, i, hd, he⟩ | ⟨-, _, -, he⟩ := tick_cases s.deliver
  case inl => rw [hl] at hl'; cases hl'
  case inr.inl => rw [hf] at hf'; cases hf'
  case inr.inr.inr.inl =>
    rw [step, he] at h
    obtain ⟨-, -, hkdt, hkst, -⟩ := eachStateHasItsWriters i _ t h
    obtain ⟨-, -, hnb⟩ := (State.running_iff _).mp hr
    refine ⟨fun hor => ?_, fun hor => ?_⟩
    · have hno := hor.resolve_left (by simp [hnb])
      rw [hkdt fun x e => hno x (e ▸ hd), State.timerPass_dt]
    · have hno := hor.resolve_left (by simp [hnb])
      rw [hkst fun x e => hno x (e ▸ hd), State.timerPass_st]
  all_goals
    rw [step, he] at h
    cases h
    exact ⟨fun _ => rfl, fun _ => rfl⟩

/-! ## The obligations: waiting in Fx0A -/

theorem core_run_succ {s t : State} (k : Nat) (h : step s = .next t) :
    Host.Core.run Sys2Proof.core (k + 1) s = Host.Core.run Sys2Proof.core k t := by
  simp only [Host.Core.run, show Sys2Proof.core.step s = .next t from h]

/-- A waiting machine one step on, with the keys and the dirty flag that the batch left. -/
def State.waited (s : State) (ks : Vector Bool 16) (d : Bool) : State :=
  { s with dt := countDown s.dt, st := countDown s.st, keys := ks, dirty := d,
           env := { s.env with inputs := s.env.inputs.tail } }

theorem step_waiting {s : State} (hl : s.loaded = true) (hf : s.fault = none) (hb : s.blocked = true)
    (h : ∀ a ∈ s.nextBatch, a.endsWait = false) : ∃ ks d, step s = .next (s.waited ks d) := by
  refine ⟨s.deliver.keys, s.deliver.dirty, ?_⟩
  rw [step, State.deliver_noWait s h]
  exact tick_blocked hl hf hb

theorem State.nextBatch_mem (s : State) (h : s.nextBatch ≠ []) : s.nextBatch ∈ s.env.inputs := by
  unfold State.nextBatch at *
  cases hi : s.env.inputs with
  | nil => rw [hi] at h; exact absurd rfl h
  | cons b _ => exact List.mem_cons_self

/-- Settles O32: by induction on the number of steps, from any waiting state. -/
theorem keyWaitHolds : Obligations.KeyWaitHolds := by
  intro k
  induction k with
  | zero => exact fun s _ _ hb _ => ⟨s, rfl, hb, rfl, rfl, rfl, rfl⟩
  | succ k ih =>
    intro s hl hf hb hin
    have hbatch : ∀ a ∈ s.nextBatch, a.endsWait = false := fun a ha =>
      hin _ (s.nextBatch_mem (List.ne_nil_of_mem ha)) a ha
    obtain ⟨ks, d, hstep⟩ := step_waiting hl hf hb hbatch
    have htail : ∀ b ∈ (s.waited ks d).env.inputs, ∀ a ∈ b, a.endsWait = false := fun b hm =>
      hin b (List.mem_of_mem_tail hm)
    obtain ⟨t, hrun, htb, hpc, hdt, hst, hframe⟩ := ih (s.waited ks d) hl hf hb htail
    refine ⟨t, (core_run_succ k hstep).trans hrun, htb, hpc, hdt.trans ?_, hst.trans ?_, hframe⟩
    · rw [State.waited, countDown_toNat]
      omega
    · rw [State.waited, countDown_toNat]
      omega

/-- What a batch with a first keyDown makes of a waiting machine: later presses set their key only (R312). -/
theorem State.deliver_keyDown {s : State} {c : Key} {pre more : List HostAction} {rest : List (List HostAction)}
    (hl : s.loaded = true) (hb : s.blocked = true) (hin : s.env.inputs = (pre ++ .keyDown c :: more) :: rest)
    (hpre : ∀ a ∈ pre, a.endsWait = false) (hmore : ∀ a ∈ more, a.isGoodLoad = false) :
    ∃ ks d, s.deliver = { s with keys := ks, dirty := d, blocked := false, pendingUnblock := true, lastKey := some c,
                                 env := { s.env with inputs := rest } } := by
  simp only [State.deliver, hin]
  rw [State.acts_append_cons, State.acts_noWait _ pre hpre]
  simp only [State.act, State.keyDown, hl, hb, if_true]
  rw [State.acts_unblocked rfl hmore]
  exact ⟨_, _, rfl⟩

theorem keyByte_toNat (k : Key) : (keyByte k).toNat = k.val := by
  have := k.isLt
  rw [keyByte, BitVec.toNat_ofNat]
  omega

/-- Settles O33: after the batch the first code pressed is recorded, the machine runs, and its Fx0A completes with it. -/
theorem keyPressResolvesWait : Obligations.KeyPressResolvesWait := by
  intro s x c pre more rest hl hf hb hd hin hpre hmore
  obtain ⟨ks, d, hdel⟩ := State.deliver_keyDown hl hb hin hpre hmore
  have hr : s.deliver.running = true := by rw [State.running_iff, hdel]; exact ⟨hl, hf, rfl⟩
  have hd' : decodeWord s.deliver.fetch = .instr (.ldVxK x) := by rw [hdel]; exact hd
  refine ⟨_, (tick_instr hr hd').trans (exec_ldVxK_of_pending x (by rw [hdel]; rfl)), ?_⟩
  rw [hdel]
  refine ⟨?code, rfl, rfl, rfl, rfl, hf, countDown_toNat s.dt, ?regs, fun _ => rfl⟩
  case code => rw [State.getV_nextPc, State.getV_setV_same]; exact keyByte_toNat c
  case regs => exact (onlyRegs_nextPc_setV { s with pendingUnblock := false, lastKey := none } x _).1

end Sys2Proof.Machine
end

section
/-! The invariant (10_state.md sections 3 to 9, 60_exceptions.md section 1): its parts as propositions, what each part needs
of an instruction, what a host action keeps of it, then the two obligations. -/

namespace Sys2Proof.Machine

/-! ## The parts -/

theorem State.inv_iff (s : State) : s.inv = true ↔ s.memOk = true ∧ s.indexOk = true ∧ s.stackOk = true ∧
    s.displayOk = true ∧ s.blockOk = true ∧ s.faultOk = true ∧ s.loadedOk = true := by
  simp only [State.inv, Bool.and_eq_true, and_assoc]

theorem State.indexOk_iff (s : State) : s.indexOk = true ↔ s.i.toNat ≤ 0xFFF := decide_eq_true_iff

theorem State.stackOk_iff (s : State) : s.stackOk = true ↔ ∀ n, s.cfg.stackLimit = some n → s.stack.length ≤ n := by
  unfold State.stackOk
  split <;> simp_all

theorem State.blockOk_iff (s : State) : s.blockOk = true ↔
    ¬ (s.blocked = true ∧ s.pendingUnblock = true) ∧ s.pendingUnblock = s.lastKey.isSome ∧
    (s.blocked = true ∨ s.pendingUnblock = true → ∃ x, decodeWord s.fetch = .instr (.ldVxK x)) := by
  simp only [State.blockOk, State.waitsHere, Bool.and_eq_true, Bool.not_eq_true', Bool.and_eq_false_iff, beq_iff_eq,
    Bool.or_eq_true, Bool.or_eq_false_iff, decide_eq_true_eq, and_assoc]
  cases s.blocked <;> cases s.pendingUnblock <;> simp

theorem State.faultOk_of_none {s : State} (h : s.fault = none) : s.faultOk = true := by simp [State.faultOk, h]

theorem State.blocked_of_fault {s : State} {r : FaultRecord} (hok : s.faultOk = true) (h : s.fault = some r) :
    s.blocked = false := by
  simp only [State.faultOk, h, Bool.and_eq_true, Bool.not_eq_true'] at hok
  exact hok.1.2

theorem State.loadedOk_of_loaded {s : State} (h : s.loaded = true) : s.loadedOk = true := by simp [State.loadedOk, h]

/-- No part reads keys, dirty flag, timers or environment of a loaded machine. -/
theorem State.inv_withInputs {s : State} (hl : s.loaded = true) (hi : s.inv = true) (ks : Vector Bool 16) (d : Bool)
    (dt st : Byte) (e : Env) : State.inv { s with keys := ks, dirty := d, dt := dt, st := st, env := e } = true := by
  rw [State.inv_iff] at hi ⊢
  obtain ⟨hmem, hindex, hstack, hdisplay, hblock, hfault, -⟩ := hi
  exact ⟨hmem, hindex, hstack, hdisplay, hblock, hfault, State.loadedOk_of_loaded hl⟩

/-! ## After a load and at power-on -/

theorem State.initial_inv (cfg : Config) (env : Env) {m : Memory}
    (hm : Memory.wf (Memory.background cfg.font) m = true) : (State.initial cfg env m).inv = true := by
  rw [State.inv_iff]
  refine ⟨hm, rfl, ?stack, Framebuffer.blank_wf _ _, ?block, rfl, rfl⟩
  case stack => rw [State.stackOk_iff]; exact fun n _ => Nat.zero_le n
  case block => rw [State.blockOk_iff]; exact ⟨by simp [State.initial], rfl, by simp [State.initial]⟩

theorem State.powerOn_inv (cfg : Config) (env : Env) : (State.powerOn cfg env).inv = true := by
  obtain ⟨hmem, hindex, hstack, hdisplay, hblock, hfault, -⟩ := (State.inv_iff _).mp (State.initial_inv cfg env (m := []) rfl)
  rw [State.inv_iff]
  exact ⟨hmem, hindex, hstack, hdisplay, hblock, hfault, decide_eq_true rfl⟩

/-- Settles O60: both have the memory of a load of no bytes, and the machine at power-on is the blank one. -/
theorem resetHasInvariant : Obligations.ResetHasInvariant :=
  ⟨State.initial_inv _ _ rfl, State.powerOn_inv⟩

/-! ## Host actions -/

theorem State.inv_withEnv {s : State} (hi : s.inv = true) (e : Env) : State.inv { s with env := e } = true := by
  by_cases hl : s.loaded = true
  · exact State.inv_withInputs hl hi _ _ _ _ e
  · obtain ⟨-, -, -, -, -, -, hblank⟩ := (State.inv_iff s).mp hi
    have hs : s = State.powerOn s.cfg s.env := by simpa [State.loadedOk, hl] using hblank
    have he : ({ s with env := e } : State) = State.powerOn s.cfg e := congrArg (fun u : State => { u with env := e }) hs
    exact he ▸ State.powerOn_inv s.cfg e

/-- A recorded press turns the wait into a pending key at the same Fx0A (R32, R312). -/
theorem State.keyDown_inv {s : State} (c : Key) (hl : s.loaded = true) (hb : s.blocked = true) (hi : s.inv = true) :
    (s.keyDown c).inv = true := by
  obtain ⟨hmem, hindex, hstack, hdisplay, hblock, hfault, -⟩ := (State.inv_iff s).mp hi
  have hnone : s.fault = none := by
    by_contra hne
    obtain ⟨r, hr⟩ := Option.ne_none_iff_exists'.mp hne
    rw [State.blocked_of_fault hfault hr] at hb
    cases hb
  obtain ⟨-, -, hwait⟩ := (State.blockOk_iff s).mp hblock
  simp only [State.keyDown, hl, hb, if_true]
  rw [State.inv_iff]
  refine ⟨hmem, hindex, hstack, hdisplay, ?block, State.faultOk_of_none hnone, rfl⟩
  case block => rw [State.blockOk_iff]; exact ⟨nofun, rfl, fun _ => hwait (.inl hb)⟩

theorem State.act_inv (s : State) (a : HostAction) (hi : s.inv = true) : (s.act a).inv = true := by
  cases hg : a.isGoodLoad with
  | true =>
    cases a with
    | load rom =>
      have hlen : rom.length ≤ romMax := of_decide_eq_true hg
      rw [State.act_goodLoad s hlen]
      have hfits : romBase + rom.length ≤ memSize := by simp only [romBase, memSize, romMax] at *; omega
      exact State.initial_inv _ _ (Memory.ofBytes_wfAbove (Nat.zero_le _) hfits)
    | _ => cases hg
  | false =>
    cases hl : s.loaded with
    | false => rw [State.act_unloaded hl hg]; exact hi
    | true =>
      cases hb : s.blocked with
      | false => rw [State.act_unblocked hb hg]; exact State.inv_withInputs hl hi _ _ _ _ _
      | true =>
        cases a with
        | keyDown c => exact State.keyDown_inv c hl hb hi
        | load rom => rw [State.act_noWait s (.load rom) hg]; exact State.inv_withInputs hl hi _ _ _ _ _
        | _ => rw [State.act_noWait s _ rfl]; exact State.inv_withInputs hl hi _ _ _ _ _

theorem State.deliver_inv {s : State} (hi : s.inv = true) : s.deliver.inv = true := by
  rw [State.deliver_eq]
  exact State.acts_induction (P := fun u => u.inv = true) State.act_inv _ _ (State.inv_withEnv hi _)

/-! ## Instructions, part by part -/

section
variable {i : Instr} {s t : State} (h : exec i s = .next t)
include h

theorem exec_memOk (hm : s.memOk = true) : t.memOk = true := by
  cases i with
  | ldB _ | stRegs _ => cases h; exact State.storeBytes_memOk _ _ hm
  | _ =>
    have hmem := exec_keeps_mem h nofun nofun
    rw [State.memOk, State.background, hmem, exec_cfg h]
    exact hm

theorem exec_indexOk (hwf : i.wf = true) (hi : s.indexOk = true) : t.indexOk = true := by
  rw [State.indexOk_iff] at *
  by_cases hkept : t.i = s.i
  · rw [hkept]; exact hi
  · exact exec_index_le hwf h hkept

theorem exec_stackOk (hs : s.stackOk = true) : t.stackOk = true := by
  rw [State.stackOk_iff] at *
  rw [exec_cfg h]
  intro n hn
  have hle := hs n hn
  cases i with
  | ret =>
    obtain ⟨-, he⟩ | ⟨st, a, hst, he⟩ := exec_ret_cases s <;> (rw [he] at h; cases h)
    · exact hle
    · rw [hst, List.length_append] at hle
      exact Nat.le_of_add_right_le hle
  | call m =>
    obtain ⟨-, he⟩ | ⟨hroom, he⟩ := exec_call_cases m s <;> (rw [he] at h; cases h)
    · exact hle
    · rw [hn, ne_eq, Option.some_inj] at hroom
      rw [List.length_append, List.length_singleton]
      omega
  | _ =>
    obtain ⟨-, hkept, -⟩ := eachStateHasItsWriters _ s t h
    obtain ⟨hstack, -⟩ := hkept ⟨nofun, nofun⟩
    rw [hstack]
    exact hle

theorem exec_displayOk (hd : s.displayOk = true) : t.displayOk = true := by
  cases i with
  | cls => cases h; exact Framebuffer.blank_wf _ _
  | drw x y n => cases h; exact (drawSprite_drawn (acc := (s.fb, false)) _ _ _ hd).wf
  | _ =>
    obtain ⟨hfb, -⟩ := exec_keeps_screen h nofun nofun
    rw [State.displayOk, hfb, exec_cfg h]
    exact hd

/-- Fx0A leaves a wait at itself or none; with no Fx0A at PC no block state was set and none is (R32). -/
theorem exec_blockOk (hd : decodeWord s.fetch = .instr i) (hnb : s.blocked = false) (hb : s.blockOk = true) :
    t.blockOk = true := by
  rw [State.blockOk_iff] at *
  obtain ⟨-, hkey, hwait⟩ := hb
  by_cases hi : ∃ x, i = .ldVxK x
  · obtain ⟨x, rfl⟩ := hi
    obtain ⟨hp, he⟩ | ⟨-, he⟩ := exec_ldVxK_cases x s <;> (rw [he] at h; cases h)
    · exact ⟨by simp [hp], hkey, fun _ => ⟨x, hd⟩⟩
    · exact ⟨by simp, rfl, by simp [hnb]⟩
  · have hno := not_exists.mp hi
    obtain ⟨-, -, -, -, hkept, -⟩ := eachStateHasItsWriters i s t h
    obtain ⟨hblocked, hpending, hlast⟩ := hkept hno
    have hidle : s.pendingUnblock = false := by
      by_contra hp
      obtain ⟨x, hx⟩ := hwait (.inr (by simpa using hp))
      rw [hd] at hx
      cases hx
      exact hno x rfl
    rw [hblocked, hpending, hlast, hnb, hidle]
    exact ⟨by simp, hidle ▸ hkey, by simp⟩

end

/-! ## The step -/

/-- A latched fault keeps the invariant where it is that of the instruction at PC. -/
theorem State.inv_withFault {s : State} {r : FaultRecord} (hi : s.inv = true) (hl : s.loaded = true)
    (hb : s.blocked = false) (hop : r.opcode = s.fetch) (hpc : r.pc = s.pc) (hraises : s.raises r.kind = true) :
    State.inv { s with fault := some r } = true := by
  rw [State.inv_iff] at hi ⊢
  obtain ⟨hmem, hindex, hstack, hdisplay, hblock, -, -⟩ := hi
  refine ⟨hmem, hindex, hstack, hdisplay, hblock, ?fault, State.loadedOk_of_loaded hl⟩
  case fault =>
    simp only [State.faultOk, Bool.and_eq_true, Bool.not_eq_true', decide_eq_true_eq]
    exact ⟨⟨⟨hop, hpc⟩, hb⟩, hraises⟩

theorem interpret_inv {s t : State} (hr : s.running = true) (hi : s.inv = true) (h : interpret s = .next t) :
    t.inv = true := by
  obtain ⟨hl, hf, hnb⟩ := s.running_iff.mp hr
  cases ht : t.fault with
  | some r =>
    obtain ⟨hop, hpc, hraises, rfl⟩ := interpret_fault hf h ht
    exact State.inv_withFault hi hl hnb hop hpc hraises
  | none =>
    cases hd : decodeWord s.fetch with
    | unknownOpcode op =>
      rw [interpret_unknown hd] at h
      cases h
      cases ht
    | instr i =>
      rw [interpret_instr hd] at h
      obtain ⟨hwf, -⟩ := decodeWord_encodedBy hd
      rw [State.inv_iff] at hi ⊢
      obtain ⟨hmem, hindex, hstack, hdisplay, hblock, -, -⟩ := hi
      exact ⟨exec_memOk h hmem, exec_indexOk h hwf hindex, exec_stackOk h hstack, exec_displayOk h hdisplay,
        exec_blockOk h hd hnb hblock, State.faultOk_of_none ht, State.loadedOk_of_loaded ((exec_loaded h).trans hl)⟩

theorem tick_inv {s t : State} (hi : s.inv = true) (h : tick s = .next t) : t.inv = true := by
  by_cases hr : s.running = true
  · rw [tick_running hr] at h
    exact interpret_inv (s := s.timerPass) hr (State.inv_withInputs (State.loaded_of_running hr) hi _ _ _ _ _) h
  · obtain ⟨-, he⟩ | ⟨-, -, he⟩ | ⟨hl, -, -, he⟩ | ⟨hr', -⟩ | ⟨hr', -⟩ := tick_cases s
    case inr.inr.inl => rw [he] at h; cases h; exact State.inv_withInputs hl hi _ _ _ _ _
    case inl | inr.inl => rw [he] at h; cases h; exact hi
    all_goals exact absurd hr' hr

/-- Settles O59: delivery keeps the invariant action by action, the tick case by case, and an instruction part by part. -/
theorem stepKeepsInvariant : Obligations.StepKeepsInvariant := fun _ _ hi h => tick_inv (State.deliver_inv hi) h

end Sys2Proof.Machine
end

section
/-! Memory (20_memory.md, 44_index_memory.md): reads by effective address, the fetch as a number, what memory reads once an
instruction has stored, then the obligations (R60 to R67, R243 to R246). -/

namespace Sys2Proof.Machine

/-! ## Effective addresses and the fetch -/

theorem State.memRead_congr (s : State) {a c : Nat} (h : effAddr a = effAddr c) : s.memRead a = s.memRead c := by
  rw [State.memRead, State.memRead, h]

theorem effAddr_mod (a : Nat) : effAddr (a % 4096) = effAddr a := Nat.mod_mod a 4096

theorem State.memRead_mod (s : State) (a : Nat) : s.memRead (a % 4096) = s.memRead a := s.memRead_congr (effAddr_mod a)

theorem State.fetch_toNat (s : State) :
    s.fetch.toNat = 256 * (s.memRead s.pc.toNat).toNat + (s.memRead (s.pc.toNat + 1)).toNat := joinBytes_toNat _ _

/-- Settles O22: the cell of the effective address holds the byte, every other is as before, the form is kept. -/
theorem memoryReadAfterWrite : Obligations.MemoryReadAfterWrite := by
  intro s a c b hm
  refine ⟨fun h => ?same, fun h => State.memRead_memWrite_other s b (Ne.symm h), State.memWrite_memOk a b hm⟩
  case same => rw [State.memRead_memWrite hm, if_pos h.symm]

/-- Settles O23: an access depends on its address through `effAddr` alone. -/
theorem addressesWrap : Obligations.AddressesWrap := by
  intro s a b
  have hea : effAddr (a + 4096) = effAddr a := Nat.add_mod_right a 4096
  refine ⟨s.memRead_congr hea, by rw [State.memWrite, State.memWrite, hea], fun w hw => ?fetch⟩
  case fetch =>
    have hhi : s.memRead w.toNat = s.memRead s.pc.toNat := s.memRead_congr hw
    have hlo : s.memRead (w.toNat + 1) = s.memRead (s.pc.toNat + 1) :=
      s.memRead_congr (by simp only [effAddr, memSize]; omega)
    simp only [State.fetch, State.memRead_goto, State.goto_pc, hhi, hlo]

/-- Settles O24: the two reads of the fetch, the second address wrapped. -/
theorem fetchIsBigEndian : Obligations.FetchIsBigEndian := fun s => by rw [State.memRead_mod, State.fetch_toNat]

/-! ## Memory after a store of the bytes from I up -/

/-- `s` after an instruction that stores `bs` from I up (Fx33, Fx55). -/
def State.stored (s : State) (bs : List Byte) : State :=
  { s with mem := (s.storeBytes s.indexBase bs).mem, pc := s.pc + 2 }

theorem exec_ldB_stored (x : Reg) (s : State) : exec (.ldB x) s = .next (s.stored (bcdDigits (s.getV x))) := exec_ldB x s

theorem exec_stRegs_stored (x : Reg) (s : State) : exec (.stRegs x) s = .next (s.stored (s.regBlock x)) := exec_stRegs x s

theorem State.memRead_stored (s : State) (bs : List Byte) (a : Nat) :
    (s.stored bs).memRead a = (s.storeBytes s.indexBase bs).memRead a := by
  simp only [State.stored, State.memRead, State.background, State.storeBytes_cfg]

theorem State.memRead_stored_at {s : State} {bs : List Byte} (hm : s.memOk = true) (hlen : bs.length ≤ 16) {k : Nat}
    (hk : k < bs.length) : (s.stored bs).memRead (s.i.toNat + k) = bs[k] := by
  rw [State.memRead_stored]
  exact State.memRead_storeBytes hm _ k bs hk (by simp only [memSize]; omega)

theorem State.memKeptOutside_stored (s : State) (bs : List Byte) :
    MemKeptOutside s (s.stored bs) s.i.toNat bs.length := fun a ha => by
  rw [State.memRead_stored]
  exact State.memRead_storeBytes_other s _ a bs ha

theorem State.regBlock_length_le (s : State) (x : Reg) : (s.regBlock x).length ≤ 16 := by
  rw [State.regBlock_length]
  exact x.isLt

theorem bcdDigits_length_le (b : Byte) : (bcdDigits b).length ≤ 16 := by
  simp only [bcdDigits, List.length_cons, List.length_nil]
  omega

/-- The next fetch reads each byte as the store left it (R65): PC is 16 bits wide, so its wrap is one of addresses too. -/
theorem State.fetch_stored {s : State} {bs : List Byte} (hm : s.memOk = true) (hlen : bs.length ≤ 16) :
    (s.stored bs).fetch.toNat =
      256 * (s.byteAfterStore bs (s.pc.toNat + 2)).toNat + (s.byteAfterStore bs (s.pc.toNat + 3)).toNat := by
  have hpc : (s.stored bs).pc.toNat = (s.pc.toNat + 2) % 65536 := BitVec.toNat_add _ _
  have hread : ∀ a, (s.stored bs).memRead a = s.byteAfterStore bs a := fun a => by
    rw [State.memRead_stored, State.memRead_storeBytes_index hm bs (by simp only [memSize]; omega)]
  have hhi : effAddr (s.stored bs).pc.toNat = effAddr (s.pc.toNat + 2) := by
    simp only [hpc, effAddr, memSize]
    omega
  have hlo : effAddr ((s.stored bs).pc.toNat + 1) = effAddr (s.pc.toNat + 3) := by
    simp only [hpc, effAddr, memSize]
    omega
  rw [State.fetch_toNat, State.memRead_congr _ hhi, State.memRead_congr _ hlo, hread, hread]

/-! ## The obligations on the transfers -/

/-- Settles O25: both instructions store their bytes from I up, and the fetch sees what a read sees. -/
theorem fetchSeesStores : Obligations.FetchSeesStores := fun s x hm =>
  ⟨⟨_, exec_stRegs_stored x s, State.fetch_stored hm (s.regBlock_length_le x)⟩,
   ⟨_, exec_ldB_stored x s, State.fetch_stored hm (bcdDigits_length_le _)⟩⟩

/-- Settles O19: the three digits are the three stored bytes, each below 10. -/
theorem storeDecimalDigits : Obligations.StoreDecimalDigits := by
  intro s x hm
  have hv := (s.getV x).isLt
  have hread := fun {k : Nat} (hk : k < 3) => State.memRead_stored_at hm (bcdDigits_length_le (s.getV x)) hk
  refine ⟨_, exec_ldB_stored x s, ?hundreds, ?tens, ?units, rfl, fun _ _ => rfl, State.memKeptOutside_stored s _, rfl⟩
  case hundreds =>
    rw [← Nat.add_zero s.i.toNat, hread (by decide)]
    exact Nat.mod_eq_of_lt (by omega)
  case tens =>
    rw [hread (by decide)]
    exact Nat.mod_eq_of_lt (by omega)
  case units =>
    rw [hread (by decide)]
    exact Nat.mod_eq_of_lt (by omega)

theorem exec_ldRegs (x : Reg) (s : State) : exec (.ldRegs x) s = .next (State.nextPc { s with v := s.loadBlock x }) := rfl

theorem State.memRead_stored_block {s : State} {x k : Reg} (hm : s.memOk = true) (hk : k ≤ x) :
    (s.stored (s.regBlock x)).memRead (s.i.toNat + k.val) = s.getV k := by
  rw [State.memRead_stored, State.memRead_storeBlock hm hk]

/-- Settles O20: a block of at most 16 bytes does not overlap itself, so each byte reads back as its register. -/
theorem registerBlockTransfers : Obligations.RegisterBlockTransfers := by
  intro s x hm
  refine ⟨⟨_, exec_stRegs_stored x s, fun k hk => State.memRead_stored_block hm hk, rfl, fun _ _ => rfl, ?outside, rfl⟩,
    ⟨_, exec_ldRegs x s, fun k hk => ?loaded, fun k hk => ?upper, rfl, fun _ => rfl, rfl⟩⟩
  case outside => rw [← s.regBlock_length x]; exact State.memKeptOutside_stored s _
  case loaded => rw [State.getV_nextPc, State.getV_loadBlock, if_pos hk]
  case upper => rw [State.getV_nextPc, State.getV_loadBlock, if_neg (not_le_of_gt hk)]

/-- Settles O21: Fx65 reads the bytes that Fx55 stored, through the same memory, font and I. -/
theorem storeThenLoadBlockRestores : Obligations.StoreThenLoadBlockRestores := by
  intro s t u x hm h hmem hcfg hi
  cases (exec_stRegs_stored x s).symm.trans h
  refine ⟨_, exec_ldRegs x u, fun k hk => ?_⟩
  rw [State.getV_nextPc, State.getV_loadBlock, if_pos hk, hi, memKept_of_mem hmem hcfg, State.memRead_stored_block hm hk]

end Sys2Proof.Machine
end

section
/-! Register ALU and control flow (43_alu.md, 42_flow.md): the subtract results as numbers, the words that two skips do not
take, then the remaining obligations on them (R170 to R177, R203 to R211, R213). -/

namespace Sys2Proof

/-- The words of `t = 5` and `t = 9` with a low nibble other than 0 are in no row (R95; D4). -/
theorem decodeWord_of_nibble {w : Word} (ht : opT w = 5 ∨ opT w = 9) (hn : opN w ≠ 0) :
    decodeWord w = .unknownOpcode w := by
  rcases ht with ht | ht <;> simp only [decodeWord, ht, if_neg hn]

theorem decodeWord_encodeXYN_nibble {m n : Nat} (hm : m = 0x5000 ∨ m = 0x9000) (x y : Reg) (hpos : 0 < n) (hn : n < 16) :
    decodeWord (encodeXYN m x y n) = .unknownOpcode (encodeXYN m x y n) := by
  have hle : m ≤ 0xF000 := by omega
  have hlow : m % 4096 = 0 := by omega
  apply decodeWord_of_nibble
  · rw [opT_encodeXYN x y hn hle hlow]
    omega
  · rw [opN_encodeXYN x y hn hle hlow]
    omega

end Sys2Proof

namespace Sys2Proof.Machine

/-! ## Subtract results as numbers -/

theorem subResult_toNat (a b : Byte) : (subResult a b).toNat = (256 + a.toNat - b.toNat) % 256 := by
  have := a.isLt
  have := b.isLt
  rw [subResult, diffOf, BitVec.toNat_ofInt]
  omega

/-- VF is 1 on borrow (R213, `source`). -/
theorem subFlag_source (a b : Byte) : subFlag .source a b = if a.toNat < b.toNat then 1 else 0 := by
  have hiff : diffOf a b < 0 ↔ a.toNat < b.toNat := by rw [diffOf]; omega
  rw [subFlag, flagByte_decide]
  simp only [hiff]

/-- VF is 1 on no borrow (R213, `canonical`). -/
theorem subFlag_canonical (a b : Byte) : subFlag .canonical a b = if b.toNat ≤ a.toNat then 1 else 0 := by
  have hiff : diffOf a b ≥ 0 ↔ b.toNat ≤ a.toNat := by rw [diffOf]; omega
  rw [subFlag, flagByte_decide]
  simp only [hiff]

/-! ## The obligations on the register ALU -/

/-- Settles O6: V[x] alone is written, with the bitwise operation of the two registers. -/
theorem bitwiseResults : Obligations.BitwiseResults := by
  intro s x y
  refine ⟨⟨_, rfl, rfl, onlyRegs_nextPc_setV s x _, fun k => ?or⟩,
    ⟨_, rfl, rfl, onlyRegs_nextPc_setV s x _, fun k => ?and⟩,
    ⟨_, rfl, rfl, onlyRegs_nextPc_setV s x _, fun k => ?xor⟩⟩
  case or => rw [State.getV_nextPc, State.getV_setV_same, BitVec.getLsbD_or]
  case and => rw [State.getV_nextPc, State.getV_setV_same, BitVec.getLsbD_and]
  case xor => rw [State.getV_nextPc, State.getV_setV_same, BitVec.getLsbD_xor]

/-- What 8xy5 and 8xy7 answer on the operands `a - b` that they take (R207, R209, R213). -/
theorem exec_subtract_result {i : Instr} {s : State} {x : Reg} {a b : Byte}
    (he : exec i s = .next (s.setVFlag x (subResult a b) (subFlag s.cfg.borrow a b)).nextPc) :
    ∃ t, exec i s = .next t ∧ t.pc = s.pc + 2 ∧ OnlyRegs s t [x, regF] ∧
      (x ≠ regF → (t.getV x).toNat = (256 + a.toNat - b.toNat) % 256) ∧
      (s.cfg.borrow = .source → t.getV regF = if a.toNat < b.toNat then 1 else 0) ∧
      (s.cfg.borrow = .canonical → t.getV regF = if b.toNat ≤ a.toNat then 1 else 0) := by
  refine ⟨_, he, rfl, onlyRegs_nextPc_setVFlag s x _ _, fun hx => ?difference, fun hp => ?source, fun hp => ?canonical⟩
  case difference => rw [State.getV_nextPc, State.getV_setVFlag_dest s _ _ hx, subResult_toNat]
  case source => rw [State.getV_nextPc, State.getV_setVFlag_regF, hp, subFlag_source]
  case canonical => rw [State.getV_nextPc, State.getV_setVFlag_regF, hp, subFlag_canonical]

/-- Settles O8: 8xy7 is 8xy5 with the operands changed round. -/
theorem subtractResults : Obligations.SubtractResults := fun _ _ _ => ⟨exec_subtract_result rfl, exec_subtract_result rfl⟩

/-- Settles O11: the byte written is this draw's, whose counter goes up by one; a bit of an AND is a bit of its mask. -/
theorem randomByteMasked : Obligations.RandomByteMasked := by
  intro s x nn
  have hv : (s.drawRandom.setV x (s.nextRandom &&& nn)).nextPc.getV x = Config.randomByte s.env.draws &&& nn := by
    rw [State.getV_nextPc, State.getV_setV_same, State.nextRandom]
  obtain ⟨hregs, hmem, -⟩ := onlyRegs_nextPc_setV s.drawRandom x (s.nextRandom &&& nn)
  refine ⟨_, rfl, hv, fun k hk => ?mask, rfl, hregs, hmem, rfl⟩
  case mask =>
    rw [hv, BitVec.getLsbD_and, Bool.and_eq_true] at hk
    exact hk.2

/-! ## The obligations on jumps and skips -/

theorem onlyRegs_goto (s : State) (w : Word) : OnlyRegs s (s.goto w) [] :=
  ⟨fun r _ => State.getV_goto s w r, State.memRead_goto s w, rfl⟩

/-- The target of Bnnn does not wrap, as `nnn` is 12 bits wide (R177; D2). -/
theorem State.offsetTarget_toNat (s : State) {nnn : Word} (hn : nnn.toNat < 0x1000) :
    (s.offsetTarget nnn).toNat = (s.getV 0).toNat + nnn.toNat := by
  have := (s.getV 0).isLt
  rw [State.offsetTarget, BitVec.toNat_ofNat]
  omega

/-- Settles O12: both are class GOTO; the fetch at the target reads the same memory, by effective addresses. -/
theorem jumpTargets : Obligations.JumpTargets := by
  intro s nnn hn
  refine ⟨⟨decodeWord_encode_jp hn, _, rfl, rfl, onlyRegs_goto s nnn⟩,
    ⟨decodeWord_encode_jpV0 hn, _, rfl, s.offsetTarget_toNat hn, onlyRegs_goto s _, ?fetch⟩⟩
  case fetch => rw [State.memRead_mod, State.memRead_mod, State.fetch_toNat, State.memRead_goto, State.memRead_goto]

theorem exec_seReg (x y : Reg) (s : State) : exec (.seReg x y) s = .next (s.skipPc (s.getV x == s.getV y)) := rfl

theorem exec_sneReg (x y : Reg) (s : State) : exec (.sneReg x y) s = .next (s.skipPc (s.getV x != s.getV y)) := rfl

/-- Settles O14: skips on the equality of two registers; the words beside theirs are rejected, so no instruction's. -/
theorem registerSkips : Obligations.RegisterSkips := by
  intro s x y
  refine ⟨⟨decodeWord_encode_seReg x y, exec_skip_result (exec_seReg x y s) beq_iff_eq beq_eq_false_iff_ne⟩,
    ⟨decodeWord_encode_sneReg x y, exec_skip_result (exec_sneReg x y s) bne_iff_ne bne_eq_false_iff_eq⟩,
    fun n i hpos hn => ⟨fun h => ?five, fun h => ?nine⟩⟩
  case five => cases (decodeWord_encodeXYN_nibble (.inl rfl) x y hpos hn).symm.trans h
  case nine => cases (decodeWord_encodeXYN_nibble (.inr rfl) x y hpos hn).symm.trans h

/-! ## The obligations on the call stack -/

/-- Settles O15: the branches of CALL and RET that take no fault. -/
theorem callAndReturnResults : Obligations.CallAndReturnResults := fun _ =>
  ⟨fun n hroom => ⟨_, exec_call_of_room n hroom, rfl, rfl, fun _ _ => rfl, fun _ => rfl, rfl⟩,
   fun _ _ hs => ⟨_, exec_ret_of_concat hs, rfl, rfl, fun _ _ => rfl, fun _ => rfl, rfl⟩⟩

/-- Settles O16: the call leaves its own address on top, and the return takes that entry off again. -/
theorem callThenReturnResumes : Obligations.CallThenReturnResumes := by
  intro s t u nnn hroom h hstack
  cases (exec_call_of_room nnn hroom).symm.trans h
  exact ⟨_, exec_ret_of_concat hstack, rfl, rfl⟩

/-- Settles O17: the branches that take a fault; an unbounded stack is never full. -/
theorem callAndReturnFaults : Obligations.CallAndReturnFaults := by
  intro s
  refine ⟨fun nnn hfull => ⟨_, BitVec.toNat_ofNat _ 16, exec_call_of_full nnn hfull⟩, exec_ret_of_empty,
    fun nnn t hnone h => ?unbounded⟩
  case unbounded =>
    have hroom : s.cfg.stackLimit ≠ some s.stack.length := by simp [hnone]
    cases (exec_call_of_room nnn hroom).symm.trans h
    rfl

end Sys2Proof.Machine
end

section
/-! Sprites (41_display.md, 90_conflicts.md C4): what a draw answers, pixel by pixel and in VF, then the obligations on one
draw and on two (R151 to R154). -/

namespace Sys2Proof.Machine

theorem flagByte_eq_one_iff (c : Bool) : flagByte c = 1 ↔ c = true := by cases c <;> decide

theorem flagByte_eq_zero_iff (c : Bool) : flagByte c = 0 ↔ ¬ c = true := by cases c <;> decide

/-- The sprite of this draw has an on-screen 1 bit on a pixel that is 1 (R152). -/
def State.collides (s : State) (x y : Reg) (n : Nat) : Prop :=
  ∃ r c, s.spriteLit x y n r c = true ∧ s.fb.pixel r c = true

/-- `s` after a draw that leaves the framebuffer and the collision in `drawn`. -/
def State.afterDraw (s : State) (drawn : Framebuffer × Bool) : State :=
  State.nextPc (State.setV { s with fb := drawn.1, dirty := true } regF (flagByte drawn.2))

/-- What Dxyn answers: a framebuffer that differs by the lit pixels, and the collision as the flag (R151 to R154). -/
theorem exec_drw_drawn (x y : Reg) (n : Nat) {s : State} (hd : s.displayOk = true) :
    ∃ drawn, exec (.drw x y n) s = .next (s.afterDraw drawn) ∧
      DrawnBy s.cfg.fbH s.cfg.fbW (s.spriteLit x y n) (s.fb, false) drawn :=
  ⟨_, rfl, (drawSprite_drawn (acc := (s.fb, false)) _ _ _ hd).congr (s.litAt_spriteBytes x y n)⟩

theorem State.getV_afterDraw_regF (s : State) (drawn : Framebuffer × Bool) :
    (s.afterDraw drawn).getV regF = flagByte drawn.2 := by
  rw [State.afterDraw, State.getV_nextPc, State.getV_setV_same]

theorem State.regsKept_afterDraw (s : State) (drawn : Framebuffer × Bool) : RegsKept s (s.afterDraw drawn) [regF] :=
  regsKept_nextPc_setV_regF _ fun _ => rfl

section
variable {s : State} {x y : Reg} {n : Nat} {drawn : Framebuffer × Bool}
  (h : DrawnBy s.cfg.fbH s.cfg.fbW (s.spriteLit x y n) (s.fb, false) drawn)
include h

theorem DrawnBy.flag_eq_one_iff : (s.afterDraw drawn).getV regF = 1 ↔ s.collides x y n := by
  rw [State.getV_afterDraw_regF, flagByte_eq_one_iff, h.coll]
  exact or_iff_right nofun

theorem DrawnBy.flag_eq_zero_iff : (s.afterDraw drawn).getV regF = 0 ↔ ¬ s.collides x y n := by
  rw [State.getV_afterDraw_regF, flagByte_eq_zero_iff, h.coll]
  exact not_congr (or_iff_right nofun)

end

/-- Settles O27: the drawn framebuffer pixel by pixel, and the flag by whether a lit pixel was 1. -/
theorem drawSpriteResult : Obligations.DrawSpriteResult := by
  intro s x y n hd
  obtain ⟨drawn, he, h⟩ := exec_drw_drawn x y n hd
  exact ⟨_, he, h.pixel, h.wf, h.flag_eq_one_iff.mpr, h.flag_eq_zero_iff.mpr, rfl, rfl, s.regsKept_afterDraw drawn,
    fun _ => rfl, rfl⟩

/-- A draw moves no sprite whose coordinates are not in VF. -/
theorem State.spriteLit_afterDraw (s : State) (drawn : Framebuffer × Bool) {x y : Reg} (hx : x ≠ regF) (hy : y ≠ regF)
    (n r c : Nat) : (s.afterDraw drawn).spriteLit x y n r c = s.spriteLit x y n r c := by
  have hvx := s.regsKept_afterDraw drawn x (by simpa using hx)
  have hvy := s.regsKept_afterDraw drawn y (by simpa using hy)
  rw [State.spriteLit, hvx, hvy]
  rfl

/-- Settles O28: the second draw flips the same pixels back, and collides where a lit pixel was 0 before the first. -/
theorem drawTwiceRestores : Obligations.DrawTwiceRestores := by
  intro s t u x y n hd hx hy ht hu
  obtain ⟨drawn, he, h⟩ := exec_drw_drawn x y n hd
  cases he.symm.trans ht
  obtain ⟨again, he', h'⟩ := exec_drw_drawn (s := s.afterDraw drawn) x y n h.wf
  cases he'.symm.trans hu
  have hlit := s.spriteLit_afterDraw drawn hx hy n
  have hpix : ∀ r c, (s.afterDraw drawn).fb.pixel r c = (s.fb.pixel r c ^^ s.spriteLit x y n r c) := h.pixel
  have hcoll : (s.afterDraw drawn).collides x y n ↔ ∃ r c, s.spriteLit x y n r c = true ∧ s.fb.pixel r c = false := by
    refine exists_congr fun r => exists_congr fun c => ?_
    rw [hlit, hpix]
    exact and_congr_right fun hl => by simp [hl]
  refine ⟨Framebuffer.ext_pixel h'.wf hd fun r c => ?restored, h'.flag_eq_one_iff.trans hcoll,
    fun hclear => ⟨?first, ?second⟩⟩
  case restored =>
    refine (h'.pixel r c).trans ?_
    rw [hlit, hpix, Bool.xor_assoc, Bool.xor_self, Bool.xor_false]
  case first =>
    refine h.flag_eq_zero_iff.mpr fun ⟨r, c, hl, hp⟩ => ?_
    rw [hclear r c hl] at hp
    cases hp
  case second =>
    refine (h'.flag_eq_one_iff.trans hcoll).trans (exists_congr fun r => exists_congr fun c => ?_)
    exact ⟨fun ⟨hl, _⟩ => hl, fun hl => ⟨hl, hclear r c hl⟩⟩

end Sys2Proof.Machine
end

section
/-! Keys, timers, host actions and reset (45_keys_timers.md, 40_cycle.md section 1, 60_exceptions.md, 70_reset_and_hazards.md
section 1): the hooks and the loaded memory in numbers, then the remaining obligations. -/

namespace Sys2Proof.Machine

/-! ## Key skips and Fx0A -/

theorem exec_skp (x : Reg) (s : State) : exec (.skp x) s = .next (s.skipPc (s.pressed (s.getV x))) := rfl

theorem exec_sknp (x : Reg) (s : State) : exec (.sknp x) s = .next (s.skipPc (!s.pressed (s.getV x))) := rfl

theorem State.not_pressed_iff (s : State) (b : Byte) :
    s.pressed b = false ↔ ¬ ∃ k : Key, k.val = b.toNat ∧ s.keys[k] = true := by
  rw [← s.pressed_iff b, Bool.not_eq_true]

/-- Settles O29: skips on `pressed` and on its negation. -/
theorem keySkips : Obligations.KeySkips := by
  intro s x
  have hp := s.pressed_iff (s.getV x)
  have hnp := s.not_pressed_iff (s.getV x)
  obtain ⟨t, he, honly, hreleased, hpressed⟩ :=
    exec_skip_result (exec_sknp x s) (by rw [Bool.not_eq_true', hnp]) (by rw [Bool.not_eq_false', hp])
  exact ⟨exec_skip_result (exec_skp x s) hp hnp, t, he, honly, hpressed, hreleased⟩

/-- Settles O31: the two branches of Fx0A, by the pending flag. -/
theorem keyWaitInstruction : Obligations.KeyWaitInstruction := by
  intro s x
  refine ⟨fun h => ⟨_, exec_ldVxK_of_idle x h, rfl, rfl, fun _ _ => rfl, fun _ => rfl, rfl⟩,
    fun k h hk => ⟨_, exec_ldVxK_of_pending x h, ?code, rfl, rfl, rfl, ?regs, fun _ => rfl, rfl⟩⟩
  case code =>
    rw [State.getV_nextPc, State.getV_setV_same, hk]
    exact keyByte_toNat k
  case regs => exact (onlyRegs_nextPc_setV { s with pendingUnblock := false, lastKey := none } x _).1

/-! ## Timers -/

/-- A timer's hook: the value after the pass is not 0, so the value before was at least 2 (R121). -/
theorem countDown_ne_zero_iff (b : Byte) : countDown b ≠ 0 ↔ 2 ≤ b.toNat := by
  rw [BitVec.toNat_ne, countDown_toNat]
  change b.toNat - 1 ≠ 0 ↔ 2 ≤ b.toNat
  omega

theorem State.timerHooks_eq (s : State) : s.timerHooks =
    (if 2 ≤ s.dt.toNat then [Timer.delay] else []) ++ (if 2 ≤ s.st.toNat then [Timer.sound] else []) := by
  simp only [State.timerHooks, countDown_ne_zero_iff]

theorem State.sound_mem_timerHooks_iff (s : State) : Timer.sound ∈ s.timerHooks ↔ 2 ≤ s.st.toNat := by
  rw [State.timerHooks_eq]
  split_ifs with hd hs hs <;> simp [hs]

/-- Settles O34: each timer by `countDown`; the tick of a loaded machine without a fault begins with the pass. -/
theorem timerPassAndHooks : Obligations.TimerPassAndHooks := by
  intro s
  refine ⟨countDown_toNat _, countDown_toNat _, rfl, s.timerHooks_eq, fun hl hf => ⟨?hooks, ?tick⟩⟩
  case hooks => simp [State.tickHooks, hl, hf]
  case tick => simp [tick, hl, hf]

/-- Settles O30: a register and a timer are copied; the pass and the signals are functions of the value copied. -/
theorem timerTransfers : Obligations.TimerTransfers := by
  intro s x
  refine ⟨⟨decodeWord_encode (i := .ldVxDt x) rfl, ⟨_, rfl, ?read, rfl, onlyRegs_nextPc_setV s x _⟩, _, rfl, ?later⟩,
    ⟨decodeWord_encode (i := .ldDtVx x) rfl, _, rfl, rfl, rfl, fun _ _ => rfl, fun _ => rfl, rfl, countDown_toNat _⟩,
    ⟨decodeWord_encode (i := .ldStVx x) rfl, _, rfl, rfl, rfl, fun _ _ => rfl, fun _ => rfl, rfl, countDown_toNat _,
      State.sound_mem_timerHooks_iff _, fun hl => State.isSoundActive_iff_of_loaded hl⟩⟩
  case read => rw [State.getV_nextPc, State.getV_setV_same]
  case later => rw [State.getV_nextPc, State.getV_setV_same]; exact countDown_toNat _

/-! ## Host actions -/

theorem State.act_keyDown_keys {s : State} (c : Key) (hl : s.loaded = true) :
    (s.act (.keyDown c)).keys = s.keys.set c true := by
  cases hb : s.blocked <;> simp [State.act, State.keyDown, hl, hb]

theorem State.act_keyUp {s : State} (c : Key) (hl : s.loaded = true) :
    s.act (.keyUp c) = { s with keys := s.keys.set c false } := by
  rw [State.act, State.keyUp, if_pos hl]

/-- Settles O44: an event sets one entry of the key vector; a press while Fx0A waits also writes the block state. -/
theorem keyEvents : Obligations.KeyEvents := by
  intro s c hl
  rw [State.act_keyDown_keys c hl, State.act_keyUp c hl]
  refine ⟨by simp, by simp, fun k hk => ?others, fun hb => ?waiting, fun hb => ?running, rfl⟩
  case others =>
    have hne : c.val ≠ k.val := fun e => hk (Fin.ext e.symm)
    simp [hne]
  case waiting => simp [State.act, State.keyDown, hl, hb]
  case running => simp [State.act, State.keyDown, hl, hb]

/-- Settles O46: by the frame of an action that is no successful load. -/
theorem hostActionsTouchInputsOnly : Obligations.HostActionsTouchInputsOnly := by
  intro s a ha
  have hframe := s.act_frame a ha
  refine ⟨hframe, fun r _ => ?regs, fun b => ?mem, fun hl => ?dirty⟩
  case regs => rw [hframe]; rfl
  case mem => rw [hframe]; rfl
  case dirty => rw [State.act, State.clearDirty, if_pos hl]

/-! ## Load and reset -/

theorem Memory.background_font {font : List Byte} {k : Nat} (hk : k < 80) :
    Memory.background font (0x050 + k) = font.getD k 0 := by
  rw [Memory.background, if_pos (by simp only [fontBase, fontSize]; omega), fontBase, Nat.add_sub_cancel_left]

theorem Memory.background_outside (font : List Byte) {a : Nat} (ha : ¬ (0x050 ≤ a ∧ a < 0x0A0)) :
    Memory.background font a = 0 := if_neg ha

/-- What the memory after a load holds: the ROM from 0x200 up, and the background elsewhere (R36, R351). -/
theorem State.memRead_initial (cfg : Config) (env : Env) (rom : List Byte) {a : Nat} (ha : a < 4096) :
    (State.initial cfg env (Memory.ofBytes (Memory.background cfg.font) romBase rom)).memRead a =
      if 0x200 ≤ a then (rom[a - 0x200]?).getD (Memory.background cfg.font a) else Memory.background cfg.font a := by
  rw [← Memory.read_ofBytes, State.memRead, effAddr, memSize, Nat.mod_eq_of_lt ha]
  rfl

theorem State.getV_initial (cfg : Config) (env : Env) (m : Memory) (r : Reg) : (State.initial cfg env m).getV r = 0 := by
  simp [State.getV, State.initial]

theorem State.keys_initial (cfg : Config) (env : Env) (m : Memory) (k : Key) :
    (State.initial cfg env m).keys[k] = false := by
  simp [State.initial]

/-- Settles O47: the reset record field by field, its memory by the three ranges. -/
theorem loadInstallsResetRecord : Obligations.LoadInstallsResetRecord := by
  intro s rom hlen
  refine ⟨_, s.act_goodLoad hlen, ?reply, rfl, rfl, fun k hk => ?rom, fun k hk => ?font, fun a ha hfont hrom => ?zero,
    State.getV_initial _ _ _, rfl, rfl, rfl, rfl, State.keys_initial _ _ _, Framebuffer.blank_wf _ _,
    Framebuffer.pixel_blank _ _, rfl, rfl, rfl, rfl, rfl, rfl, rfl⟩
  case reply => rw [State.reply, loadResult, romMax, if_pos hlen]
  case rom =>
    rw [State.memRead_initial _ _ _ (by omega), if_pos (by omega), Nat.add_sub_cancel_left]
    simp [hk]
  case font => rw [State.memRead_initial _ _ _ (by omega), if_neg (by omega), Memory.background_font hk]
  case zero =>
    rw [State.memRead_initial _ _ _ ha, Memory.background_outside _ hfont]
    split_ifs with h
    · rw [List.getElem?_eq_none (by omega)]
      rfl
    · rfl

theorem default_font : Config.default.font = fontTable := rfl

/-- What the memory after reset holds: the font table and zero (R36, R37; D16). -/
theorem State.memRead_reset {a : Nat} (ha : a < 4096) : State.reset.memRead a =
    if 0x050 ≤ a ∧ a < 0x0A0 then fontTable.getD (a - 0x050) 0 else 0 := by
  rw [State.memRead, effAddr, memSize, Nat.mod_eq_of_lt ha]
  rfl

/-- Settles O49: reset is the initial record of the default parameters, so its memory is the background; a load of no bytes
makes the same record. -/
theorem resetValues : Obligations.ResetValues := by
  refine ⟨rfl, rfl, State.getV_initial _ _ _, rfl, rfl, rfl, rfl, State.keys_initial _ _ _, Framebuffer.pixel_blank _ _,
    Framebuffer.blank_wf _ _, rfl, rfl, rfl, rfl, rfl, rfl, rfl, rfl, rfl, fun a ha => State.memRead_reset ha, rfl,
    default_font, fun env => ?load⟩
  case load => exact State.act_goodLoad _ (Nat.zero_le _)

end Sys2Proof.Machine
end
